-- ==== Sys2Proof/Word.lean ====
section
/-! DEFINITION. The one word of the block: the unsigned byte (R7, R10), and the plainest operation on it. -/

namespace Sys2Proof

/-- `u8`: an 8-bit unsigned value, 0 to 255 (R7, R10). -/
abbrev U8 := BitVec 8

/-- The header byte of a frame (R7). -/
abbrev headerByte : U8 := 0xFE#8

/-- The tail byte of a frame (R7). -/
abbrev tailByte : U8 := 0xFF#8

/-- The escape byte (R7). -/
abbrev escapeMark : U8 := 0xFD#8

end Sys2Proof
end

