-- ==== Sys2Proof/Config.lean ====
section
/-! DEFINITION. What one implementation of the block fixes and the spec leaves open: the parameters of R8.
Each open value is an opaque constant with no body, so nothing can be proved of it beyond the constraint R8 or
R107 puts on it, and that constraint holds by construction (log entries 1, 2, 3, 7). -/

namespace Sys2Proof.Config

/-- How far `P_MAX_SEQ` exceeds its least allowed value 514 (R8, D6): open. Log entry 1. -/
opaque maxSeqSurplus : Nat

/-- `P_MAX_SEQ`, the largest operand sequence length the block accepts: open, at least 514 (R8, D6). -/
def maxSeq : Nat := 514 + maxSeqSurplus

/-- How far `P_REQUESTERS` exceeds 1 (R8, D15): open. -/
opaque requestersSurplus : Nat

/-- `P_REQUESTERS`, the number of requesters that may issue requests to the block: open, at least 1 (R8, D15). -/
def requesters : Nat := requestersSurplus + 1

/-- A requester that every implementation has, since there is at least one (R8). -/
def firstRequester : Fin requesters := ⟨0, Nat.succ_pos _⟩

/-- The order-preserving map of the natural numbers onto those other than `k`. -/
def skip (k n : Nat) : Nat := if n < k then n else n + 1

/-- Which of the 255 bytes other than 0x02 (GET) is `P_SUB_SET`: open (R8, R107). Log entry 2. -/
opaque subSetIndex : Fin 255

/-- Which of the 254 bytes other than 0x02 and `P_SUB_SET` is `P_SUB_RESPONSE`: open (R8, R107). Log entry 2. -/
opaque subResponseIndex : Fin 254

/-- `P_SUB_SET`, the subcommand code of SET: any byte but 0x02 (R8, R107). -/
def subSet : U8 := BitVec.ofNat 8 (skip 2 subSetIndex)

/-- `P_SUB_RESPONSE`, the subcommand code of RESPONSE: any byte but 0x02 and `P_SUB_SET` (R8, R107). -/
def subResponse : U8 :=
  BitVec.ofNat 8 (skip (max 2 subSet.toNat) (skip (min 2 subSet.toNat) subResponseIndex))

/-- `P_CMD_EXTRA`, the command names beyond those R106 lists: open, a finite map read from this list, the first
pair of a code giving its name (R8). Log entry 3. -/
opaque cmdExtra : List (U8 × String)

/-- `P_SUB_EXTRA`, the subcommand names beyond those R107 lists: open, of the same form (R8). Log entry 3. -/
opaque subExtra : List (U8 × String)

/-- `P_SENSOR_FAMILY_NAME`, the name of the codes 0x50 to 0x61: open (R8, R106). -/
opaque sensorFamilyName : String

/-- `P_THRESHOLD_FAMILY_NAME`, the name of the codes 0x70 to 0x77: open (R8, R106). -/
opaque thresholdFamilyName : String

/-- FREE VALUE. Which outstanding request is performed next: the block promises no order (R49, D15). Applied to
`State.turn`, a counter the step advances. Log entry 7. -/
opaque pick : Nat → Nat

end Sys2Proof.Config
end

