-- ==== Sys2Proof/Machine/Registry.lean ====
section
/-! DEFINITION. The command registry (R105 to R114): the form of its two read-only tables, what they hold, and the
two lookups that DECODE alone makes. -/

namespace Sys2Proof.Machine

/-- What a table gives a code it holds (R106, R107); a code it does not hold is Unknown. -/
inductive Entry where
  /-- a code with a name of its own -/
  | named (name : String)
  /-- a member of a known family, itself unnamed (R106) -/
  | family (name : String)
deriving DecidableEq, Repr

/-- One row of a registry table: the codes `first` to `last` and their entry. -/
structure Row where
  first : U8
  last : U8
  entry : Entry
deriving DecidableEq, Repr

/-- A registry table (R26): the first row whose range holds a code gives its entry. -/
abbrev RegistryTable := List Row

/-- A row of one code. -/
def namedRow (code : U8) (name : String) : Row := { first := code, last := code, entry := .named name }

/-- The rows R106 lists. -/
def listedCommands : RegistryTable :=
  [ namedRow 0x01#8 "PING", namedRow 0x02#8 "LOGIN", namedRow 0x20#8 "POWER_OUTLETS",
    namedRow 0x21#8 "OUTLET_NAME", namedRow 0x22#8 "OUTLET_COUNT", namedRow 0x37#8 "EPO",
    { first := 0x50#8, last := 0x61#8, entry := .family Config.sensorFamilyName },
    { first := 0x70#8, last := 0x77#8, entry := .family Config.thresholdFamilyName } ]

/-- The rows of an extra map (R8). -/
def extraRows (extra : List (U8 × String)) : RegistryTable := extra.map fun p => namedRow p.1 p.2

/-- The contents of the command table `CMD`: the listed rows, then `P_CMD_EXTRA`, which changes none of them (R106). -/
def commandTable : RegistryTable := listedCommands ++ extraRows Config.cmdExtra

/-- The rows R107 lists. -/
def listedSubcommands : RegistryTable :=
  [ namedRow 0x02#8 "GET", namedRow Config.subSet "SET", namedRow Config.subResponse "RESPONSE" ]

/-- The contents of the subcommand table `SUB`: the listed rows, then `P_SUB_EXTRA` (R107). -/
def subcommandTable : RegistryTable := listedSubcommands ++ extraRows Config.subExtra

/-- The entry of a code, or none where it is Unknown (R106, R107). -/
def lookup (table : RegistryTable) (code : U8) : Option Entry :=
  (table.find? fun row => row.first ≤ code && code ≤ row.last).map Row.entry

/-- The class a lookup reports beside the name (R108, R109). -/
inductive NameClass where
  | named
  | family
  | unknown
deriving DecidableEq, Repr

/-- The result of a lookup: a class and a name (R108, R109). -/
structure CodeName where
  cls : NameClass
  name : String
deriving DecidableEq, Repr

/-- Reading an entry, with the name an Unknown code falls back to (R108, R109). -/
def nameOr (fallback : String) : Option Entry → CodeName
  | some (.named n) => { cls := .named, name := n }
  | some (.family n) => { cls := .family, name := n }
  | none => { cls := .unknown, name := fallback }

/-- CMDNAME (R108). -/
def cmdName (table : RegistryTable) (code : U8) : CodeName := nameOr "Unknown Command" (lookup table code)

/-- SUBNAME (R109). -/
def subName (table : RegistryTable) (code : U8) : CodeName := nameOr "Param/Data" (lookup table code)

end Sys2Proof.Machine
end

