-- ==== Sys2Proof/Machine/Response.lean ====
section
/-! DEFINITION. What a requester receives: the response of R30, the result of each operation, the refusal reasons of
R147 and their status bytes (R65). -/

namespace Sys2Proof.Machine

/-- Why a request is refused (R147). -/
inductive RefusalReason where
  /-- `op` is reserved (R63) -/
  | badOp
  /-- the operand is longer than `P_MAX_SEQ` (R64) -/
  | inputTooLong
  /-- the envelope of an ENCODE is longer than 255 bytes (R116) -/
  | envTooLong
deriving DecidableEq, Repr

/-- The breakdown of five or more bytes (R123, R124). -/
structure Breakdown where
  header : U8
  headerValid : Bool
  length : U8
  envEscaped : List U8
  envUnescaped : List U8
  envMarks : List Bool
  dest : U8
  destBroadcast : Bool
  cmd : Option U8
  cmdName : Option CodeName
  sub : Option U8
  subName : Option CodeName
  checksum : U8
  checksumExpected : U8
  checksumValid : Bool
  tail : U8
  tailValid : Bool
deriving DecidableEq, Repr

/-- The result of DECODE (R124). -/
inductive DecodeResult where
  /-- fewer than five bytes: insufficient data, no fields (R125) -/
  | empty
  | breakdown (b : Breakdown)
deriving DecidableEq, Repr

/-- The result value of a performed operation (R30). -/
inductive Result where
  /-- ESCAPE: `bytes` -/
  | escaped (bytes : List U8)
  /-- UNESCAPE: `bytes` and `marks` -/
  | unescaped (bytes : List U8) (marks : List Bool)
  /-- CHECKSUM: `ck` -/
  | checksum (ck : U8)
  /-- ENCODE: `frame` -/
  | frame (frame : List U8)
  /-- DECODE -/
  | decoded (d : DecodeResult)
deriving DecidableEq, Repr

/-- A response (R30): status OK with a result, or a refusal, which carries no result value (R148). -/
inductive Response where
  | ok (result : Result)
  | refused (reason : RefusalReason)
deriving DecidableEq, Repr

/-- The status of a response as a byte (R65). -/
def statusByte : Response → U8
  | .ok _ => 0x00#8
  | .refused .badOp => 0x01#8
  | .refused .inputTooLong => 0x02#8
  | .refused .envTooLong => 0x03#8

/-- The result field of a response: none where the request was refused (R148). -/
def resultOf : Response → Option Result
  | .ok r => some r
  | .refused _ => none

end Sys2Proof.Machine
end

