-- ==== Sys2Proof/Machine/Operands.lean ====
section
/-! DEFINITION. The operand forms of the block: the limits on an operand (R64, R116) and the slice of a sequence
(R12). -/

namespace Sys2Proof.Machine

/-- `|data| <= P_MAX_SEQ` (R64), written over the open part of `P_MAX_SEQ`; `Laws.fitsMaxSeq_iff` says it in the
spec's form, and proofs cite it, since unfolding the number 514 is slow. -/
def fitsMaxSeq (data : List U8) : Bool := decide (data.length - 514 ≤ Config.maxSeqSurplus)

/-- The response of an operation whose operand is checked against `P_MAX_SEQ` first (R64, R149). -/
def limited (data : List U8) (response : Response) : Response :=
  if fitsMaxSeq data then response else .refused .inputTooLong

/-- The response of an operation whose envelope may hold at most 255 bytes (R116). -/
def envelopeLimited (data : List U8) (response : Response) : Response :=
  if data.length ≤ 255 then response else .refused .envTooLong

/-- `s[a..b)`: the elements with index `a <= i < b` in order, none when `b <= a` (R12). -/
def slice (s : List U8) (a b : Nat) : List U8 := (s.drop a).take (b - a)

end Sys2Proof.Machine
end

