-- ==== Sys2Proof/Syntax.lean ====
section
/-! DEFINITION. What a requester sends (R29) and the five operations it can ask for (R62, the rows of
spec/opcode_table.json). -/

namespace Sys2Proof

/-- A request record `{ op, hdr, len, data }` (R29). Every field is typed, so no byte can leave 0 to 255 (R118). -/
structure Request where
  /-- selects the operation by its whole value (R62) -/
  op : U8
  /-- the header argument, read by CHECKSUM alone (R29, R64) -/
  hdr : U8
  /-- the length argument, read by CHECKSUM alone (R29, R64) -/
  len : U8
  /-- the byte-sequence operand, index 0 first (R29, R40) -/
  data : List U8
deriving DecidableEq, Repr

/-- The five operations (R62), each with the operands its format reads (R64): format S reads `data` alone,
format C (CHECKSUM) reads `hdr` and `len` too. -/
inductive Instr where
  /-- ESCAPE, op 0x01, format S: the payload (R86) -/
  | escape (data : List U8)
  /-- UNESCAPE, op 0x02, format S: the received bytes (R89) -/
  | unescape (data : List U8)
  /-- CHECKSUM, op 0x03, format C: the header argument, the length argument and the unescaped envelope (R97) -/
  | checksum (hdr len : U8) (data : List U8)
  /-- ENCODE, op 0x04, format S: the unescaped envelope (R115) -/
  | encode (data : List U8)
  /-- DECODE, op 0x05, format S: the raw bytes (R123) -/
  | decode (data : List U8)
deriving DecidableEq, Repr

/-- The byte-sequence operand of an operation (R29). -/
def Instr.data : Instr → List U8
  | .escape data => data
  | .unescape data => data
  | .checksum _ _ data => data
  | .encode data => data
  | .decode data => data

end Sys2Proof
end

