-- ==== Sys2Proof/Decode.lean ====
section
/-! DEFINITION. The operation a request selects (R62, R63), the request of an operation (R69), and the byte image
of a request in which spec/opcode_table.json numbers its bits (log entry 4). -/

namespace Sys2Proof

/-- Why a request selects no operation. -/
inductive DecodeReject where
  /-- `op` is one of the 251 reserved codes (R63); the requester is answered BAD_OP -/
  | reservedOp (op : U8)
deriving DecidableEq, Repr

/-- The operation a request selects, by the whole value of `op` (R62), with the operands its format reads (R64).
The other 251 codes are reserved (R63). -/
def decode (r : Request) : Except DecodeReject Instr :=
  if r.op = 0x01#8 then .ok (.escape r.data)
  else if r.op = 0x02#8 then .ok (.unescape r.data)
  else if r.op = 0x03#8 then .ok (.checksum r.hdr r.len r.data)
  else if r.op = 0x04#8 then .ok (.encode r.data)
  else if r.op = 0x05#8 then .ok (.decode r.data)
  else .error (.reservedOp r.op)

/-- The `op` value of an operation (R62). -/
def opOf : Instr → U8
  | .escape _ => 0x01#8
  | .unescape _ => 0x02#8
  | .checksum _ _ _ => 0x03#8
  | .encode _ => 0x04#8
  | .decode _ => 0x05#8

/-- The request of an operation: the named fields set, the unnamed `hdr` and `len` of format S 0x00 (R69). -/
def encode (i : Instr) : Request :=
  match i with
  | .checksum hdr len data => { op := opOf i, hdr := hdr, len := len, data := data }
  | .escape data => { op := opOf i, hdr := 0x00#8, len := 0x00#8, data := data }
  | .unescape data => { op := opOf i, hdr := 0x00#8, len := 0x00#8, data := data }
  | .encode data => { op := opOf i, hdr := 0x00#8, len := 0x00#8, data := data }
  | .decode data => { op := opOf i, hdr := 0x00#8, len := 0x00#8, data := data }

/-- The byte image of a request: `op`, `hdr`, `len`, then `data`. DESIGN CHOICE: the spec leaves the mapping of a
request onto wires open (`P_PORT_MAP`, R34). Log entry 4. -/
def Request.toBytes (r : Request) : List U8 := r.op :: r.hdr :: r.len :: r.data

/-- The request a byte image stands for, total on any bytes: a field beyond the end is 0x00. DESIGN CHOICE, log
entry 4. -/
def Request.ofBytes : List U8 → Request
  | [] => { op := 0x00#8, hdr := 0x00#8, len := 0x00#8, data := [] }
  | [op] => { op := op, hdr := 0x00#8, len := 0x00#8, data := [] }
  | [op, hdr] => { op := op, hdr := hdr, len := 0x00#8, data := [] }
  | op :: hdr :: len :: data => { op := op, hdr := hdr, len := len, data := data }

/-- Decoding of a byte image, total on any bytes. -/
def decodeBytes (bs : List U8) : Except DecodeReject Instr := decode (Request.ofBytes bs)

/-- The byte image of an operation's request. -/
def encodeBytes (i : Instr) : List U8 := (encode i).toBytes

/-- The lowest `n` bytes of `w`, the least significant first (bit 0 of the table is bit 0 of the first byte). -/
def wordBytes : Nat → Nat → List U8
  | 0, _ => []
  | n + 1, w => BitVec.ofNat 8 w :: wordBytes n (w / 256)

/-- The request whose byte image has the `nbits` bits of `w`, numbered as spec/opcode_table.json numbers them, and
0 in every bit above. -/
def requestOfTableWord (nbits w : Nat) : Request := Request.ofBytes (wordBytes (nbits / 8) w)

/-- The operation the decoder reads from the instruction whose bits are `w`. -/
def decodeTableWord (nbits w : Nat) : Option Instr :=
  match decode (requestOfTableWord nbits w) with
  | .ok i => some i
  | .error _ => none

end Sys2Proof
end

