-- ==== Sys2Proof/Machine/State.lean ====
section
/-! DEFINITION. The state of the machine: the block's own state, which is the two registry tables (R35), and the
requests and responses between the block and its requesters (R29 to R32, R178). -/

namespace Sys2Proof.Machine

/-- A request a requester has sent (R27, R29). The requester only says where the response goes: no rule reads it
(R160). -/
structure Submission where
  requester : Fin Config.requesters
  request : Request
deriving DecidableEq, Repr

/-- A response, with the request it answers and the requester it was delivered to (R30, R178). -/
structure Answer where
  requester : Fin Config.requesters
  request : Request
  response : Response
deriving DecidableEq, Repr

/-- The state of the machine. -/
structure State where
  /-- `CMD`, the command table (R26, R35) -/
  cmdTable : RegistryTable
  /-- `SUB`, the subcommand table (R26, R35) -/
  subTable : RegistryTable
  /-- the requests sent and not yet answered (R32, R49) -/
  pending : List Submission
  /-- the responses delivered, oldest first (R178) -/
  answered : List Answer
  /-- the model's own counter: how many choices of the next request were made, to which the free value
  `Config.pick` is applied (R49; DESIGN CHOICE, log entry 7) -/
  turn : Nat
deriving DecidableEq, Repr

/-- No operation of the block faults: malformed input is never a fault and nothing is thrown (R146). So there is no
reason to fault, and that no step faults is a fact of the type. -/
inductive Fault where
deriving DecidableEq, Repr

/-- Why the model gives no meaning. A request the BLOCK refuses is not one of these: it is answered, and the machine
goes on (R148). -/
inductive Refusal where
  /-- raised by an arm of `exec` whose operation has no meaning in the model yet; safe, since nothing is proved of
  it. No arm raises it. -/
  | notModelled (mnemonic : String)
deriving DecidableEq, Repr

/-- The machine when it becomes usable: the tables loaded (R163, R165), no request outstanding, none answered. -/
def State.reset : State where
  cmdTable := commandTable
  subTable := subcommandTable
  pending := []
  answered := []
  turn := 0

end Sys2Proof.Machine
end

