-- ==== Sys2Proof/Machine/Ops.lean ====
section
/-! DEFINITION. The named operations over the state: a requester sends a request, the block chooses one of the
outstanding requests, and its response is delivered. The block has no memory, no register and no exception (R20,
R25, R146), so a refusal is a response like any other (R148, R150). -/

namespace Sys2Proof.Machine

/-- A requester sends a request (R32). The requesters do this, between steps; no step does. -/
def State.submit (requester : Fin Config.requesters) (request : Request) (s : State) : State :=
  { s with pending := s.pending ++ [{ requester := requester, request := request }] }

/-- The element at index `k`, or the last where the list ends before it, and the others in order. -/
def takeAt {α : Type} : List α → Nat → Option (α × List α)
  | [], _ => none
  | [x], _ => some (x, [])
  | x :: y :: rest, 0 => some (x, y :: rest)
  | x :: y :: rest, k + 1 => (takeAt (y :: rest) k).map fun p => (p.1, x :: p.2)

/-- Taking an outstanding request into service: it becomes the first of `pending`, before the others. -/
def State.serve (p : Submission) (others : List Submission) (s : State) : State :=
  { s with pending := p :: others, turn := s.turn + 1 }

/-- Choosing the request to perform: any outstanding one, as the free value says (R49; log entry 7). None where no
request is outstanding. -/
def State.choose (s : State) : Option (Submission × State) :=
  (takeAt s.pending (Config.pick s.turn)).map fun p => (p.1, s.serve p.1 p.2)

/-- The record of a response delivered to the requester of its request (R30). -/
def answerOf (p : Submission) (response : Response) : Answer :=
  { requester := p.requester, request := p.request, response := response }

/-- Delivering the response to `p`, the others staying outstanding. -/
def State.deliver (p : Submission) (others : List Submission) (response : Response) (s : State) : State :=
  { s with pending := others, answered := s.answered ++ [answerOf p response] }

/-- Delivering a response to the request in service, the first of `pending`: the one effect an operation has (R30,
R31). Where no request is outstanding there is nothing to answer and nothing changes (DESIGN CHOICE, log entry 8). -/
def State.respond (response : Response) (s : State) : State :=
  match s.pending with
  | [] => s
  | p :: others => s.deliver p others response

/-- The refusal reason of a request that selects no operation (R147). -/
def rejectReason : DecodeReject → RefusalReason
  | .reservedOp _ => .badOp

/-- A request that selects no operation is answered with its refusal and has no other effect (R63, R148). -/
def State.reject (e : DecodeReject) (s : State) : State := s.respond (.refused (rejectReason e))

/-- With no request outstanding the block waits, unchanged (R164, R177; DESIGN CHOICE, log entry 9). -/
def State.idle (s : State) : State := s

/-- The run of a requester's program has ended: every request that requester sent has its response, whatever the
other requesters have outstanding (R178). -/
def State.runEnded (requester : Fin Config.requesters) (s : State) : Bool :=
  s.pending.all fun p => decide (p.requester ≠ requester)

/-- The responses a requester has received, oldest first, each paired with its request (R159, R178). -/
def State.received (requester : Fin Config.requesters) (s : State) : List Answer :=
  s.answered.filter fun a => decide (a.requester = requester)

end Sys2Proof.Machine
end

