-- ==== Sys2Proof/Machine/Checksum.lean ====
section
/-! DEFINITION. The checksum calculator: CHECKSUM (R97 to R104). -/

namespace Sys2Proof.Machine

/-- The accumulator of R97 after `data`: an exact sum of unsigned values (R98). -/
def accumulate (acc : Nat) (data : List U8) : Nat := data.foldl (fun a b => a + b.toNat) acc

/-- The `ck` of CHECKSUM: the sum of header, length and envelope modulo 128 (R97). -/
def checksumOf (hdr len : U8) (data : List U8) : U8 :=
  BitVec.ofNat 8 (accumulate (hdr.toNat + len.toNat) data % 128)

/-- The response to CHECKSUM (R97). -/
def checksumResponse (hdr len : U8) (data : List U8) : Response :=
  limited data (.ok (.checksum (checksumOf hdr len data)))

/-- CHECKSUM (R97). -/
def execChecksum (hdr len : U8) (data : List U8) (s : State) : Host.Outcome State Fault Refusal :=
  .next (s.respond (checksumResponse hdr len data))

end Sys2Proof.Machine
end

