-- ==== Sys2Proof/Machine/Escaper.lean ====
section
/-! DEFINITION. The byte escaper: ESCAPE and UNESCAPE (R85 to R96). -/

namespace Sys2Proof.Machine

/-- `protected(b)`: `b` is 0xFD, 0xFE or 0xFF (R88). -/
def isProtected (b : U8) : Bool := b == 0xFE#8 || b == 0xFF#8 || b == 0xFD#8

/-- The on-wire bytes of one payload byte (R57, R86). -/
def escapeByte (b : U8) : List U8 := if isProtected b then [escapeMark, ~~~b] else [b]

/-- The bytes ESCAPE returns, in index order (R86). -/
def escapeBytes (data : List U8) : List U8 := data.flatMap escapeByte

/-- The scan of UNESCAPE (R89), left to right: each output byte with its marker. The byte after a 0xFD is
complemented whatever it is (R92), and a 0xFD with no byte after it is kept (R90). -/
def unescapeScan : List U8 → List (U8 × Bool)
  | [] => []
  | [b] => [(b, false)]
  | b :: c :: rest =>
    if b = escapeMark then (~~~c, true) :: unescapeScan rest else (b, false) :: unescapeScan (c :: rest)

/-- The `bytes` of UNESCAPE (R89). -/
def unescapeBytes (data : List U8) : List U8 := (unescapeScan data).map Prod.fst

/-- The `marks` of UNESCAPE (R91). -/
def unescapeMarks (data : List U8) : List Bool := (unescapeScan data).map Prod.snd

/-- The response to ESCAPE (R86). -/
def escapeResponse (data : List U8) : Response := limited data (.ok (.escaped (escapeBytes data)))

/-- The response to UNESCAPE (R89). -/
def unescapeResponse (data : List U8) : Response :=
  limited data (.ok (.unescaped (unescapeBytes data) (unescapeMarks data)))

/-- ESCAPE (R86). -/
def execEscape (data : List U8) (s : State) : Host.Outcome State Fault Refusal :=
  .next (s.respond (escapeResponse data))

/-- UNESCAPE (R89). -/
def execUnescape (data : List U8) (s : State) : Host.Outcome State Fault Refusal :=
  .next (s.respond (unescapeResponse data))

end Sys2Proof.Machine
end

