-- ==== Sys2Proof/Machine/Flags.lean ====
section
/-! DEFINITION. The validity results of DECODE. The block has no status flags (R24): these are fields of one result,
each a function of the bytes it reports on. -/

namespace Sys2Proof.Machine

/-- `header_valid` (R126). -/
def headerValid (header : U8) : Bool := header == headerByte

/-- `tail_valid` (R134). -/
def tailValid (tail : U8) : Bool := tail == tailByte

/-- `checksum_valid` (R133). -/
def checksumValid (checksum expected : U8) : Bool := checksum == expected

/-- `dest_broadcast` (R129). -/
def destBroadcast (dest : U8) : Bool := dest == 0x00#8

/-- `frame_ok`, the strict test a requester may make on a DECODE result; the block does not (R169). -/
def frameOk : DecodeResult → Bool
  | .empty => false
  | .breakdown b =>
    b.headerValid && b.checksumValid && b.tailValid && b.length.toNat == b.envUnescaped.length

end Sys2Proof.Machine
end

