-- ==== Sys2Proof/Machine/Decoder.lean ====
section
/-! DEFINITION. The packet decoder: DECODE (R123 to R145), and the entry list a breakdown stands for (R137). -/

namespace Sys2Proof.Machine

/-- The breakdown of the fields of an input (R123): header, length, escaped envelope, checksum and tail, with the
unescaped envelope `dest :: params`. -/
def breakdownOf (cmds subs : RegistryTable) (h l : U8) (esc : List U8) (dest : U8) (params : List U8) (c t : U8) :
    Breakdown where
  header := h
  headerValid := headerValid h
  length := l
  envEscaped := esc
  envUnescaped := dest :: params
  envMarks := unescapeMarks esc
  dest := dest
  destBroadcast := destBroadcast dest
  cmd := params[0]?
  cmdName := params[0]?.map (cmdName cmds)
  sub := params[1]?
  subName := params[1]?.map (subName subs)
  checksum := c
  checksumExpected := checksumOf h l (dest :: params)
  checksumValid := checksumValid c (checksumOf h l (dest :: params))
  tail := t
  tailValid := tailValid t

/-- The result of DECODE (R123): `Empty` below five bytes (R125), else the breakdown by position, whatever the bytes
are (R127, R136). The last two `.empty` branches are not reached (`Laws.breakDown_fields`; DESIGN CHOICE, log
entry 17). -/
def breakDown (cmds subs : RegistryTable) (data : List U8) : DecodeResult :=
  let n := data.length
  if n < 5 then .empty
  else
    let esc := slice data 2 (n - 2)
    match data[0]?, data[1]?, data[n - 2]?, data[n - 1]? with
    | some h, some l, some c, some t =>
      match unescapeBytes esc with
      | [] => .empty
      | dest :: params => .breakdown (breakdownOf cmds subs h l esc dest params c t)
    | _, _, _, _ => .empty

/-- The response to DECODE (R123). -/
def decodeResponse (cmds subs : RegistryTable) (data : List U8) : Response :=
  limited data (.ok (.decoded (breakDown cmds subs data)))

/-- DECODE (R123): it reads the registry tables and writes nothing (R144). -/
def execDecode (data : List U8) (s : State) : Host.Outcome State Fault Refusal :=
  .next (s.respond (decodeResponse s.cmdTable s.subTable data))

/-- One entry of the list a breakdown stands for (R137). -/
structure FieldEntry where
  label : String
  raw : List U8
  /-- the unescaped form and the marks that stand beside the Data Envelope's raw bytes (R137) -/
  beside : Option (List U8 × List Bool)
  /-- the text the source fixes, where it fixes one (R138); the rest of the description is free and left out (log
  entry 11) -/
  fixedText : Option String
deriving DecidableEq, Repr

/-- The text the source fixes for the Header entry: present exactly when the header is invalid (R138). -/
def headerText (b : Breakdown) : Option String := if b.headerValid then none else some "INVALID Header"

/-- The text the source fixes for a code: the fallback name of an unknown one (R138). -/
def codeText (name : Option CodeName) : Option String :=
  match name with
  | some n => if n.cls = .unknown then some n.name else none
  | none => none

/-- An entry of one byte. -/
def byteEntry (label : String) (b : U8) (text : Option String) : FieldEntry :=
  { label := label, raw := [b], beside := none, fixedText := text }

/-- The entry of a code that may be absent (R130, R131). -/
def codeEntry (label : String) (code : Option U8) (name : Option CodeName) : List FieldEntry :=
  match code with
  | some c => [byteEntry label c (codeText name)]
  | none => []

/-- The entry list of a breakdown, in order (R137). -/
def entriesOf (b : Breakdown) : List FieldEntry :=
  [ byteEntry "Header" b.header (headerText b),
    byteEntry "Length" b.length none,
    { label := "Data Envelope", raw := b.envEscaped, beside := some (b.envUnescaped, b.envMarks), fixedText := none },
    byteEntry "Destination" b.dest none ] ++
  codeEntry "Command" b.cmd b.cmdName ++
  codeEntry "Subcommand/Parameter" b.sub b.subName ++
  [ byteEntry "Checksum" b.checksum none, byteEntry "Tail" b.tail none ]

/-- The entry list of a DECODE result: none of an `Empty` one (R125, R137). -/
def entries : DecodeResult → List FieldEntry
  | .empty => []
  | .breakdown b => entriesOf b

end Sys2Proof.Machine
end

