-- ==== Sys2Proof/Machine/Encoder.lean ====
section
/-! DEFINITION. The packet encoder: ENCODE (R115 to R122). -/

namespace Sys2Proof.Machine

/-- The length byte of an envelope, counted before escaping (R56, R115). -/
def lengthByte (envelope : List U8) : U8 := BitVec.ofNat 8 envelope.length

/-- The frame of an envelope: header, length, escaped envelope, checksum of the unescaped envelope, tail (R55, R115). -/
def buildFrame (envelope : List U8) : List U8 :=
  [headerByte, lengthByte envelope] ++ escapeBytes envelope ++
    [checksumOf headerByte (lengthByte envelope) envelope, tailByte]

/-- The response to ENCODE: the general limit before the envelope's (R115, R149). -/
def encodeResponse (data : List U8) : Response :=
  limited data (envelopeLimited data (.ok (.frame (buildFrame data))))

/-- ENCODE (R115). -/
def execEncode (data : List U8) (s : State) : Host.Outcome State Fault Refusal :=
  .next (s.respond (encodeResponse data))

end Sys2Proof.Machine
end

