-- ==== Sys2Proof/Machine/Dispatch.lean ====
section
/-! DEFINITION. The meaning of each operation, by constructor. -/

namespace Sys2Proof.Machine

/-- Performing an operation for the request in service (R31). -/
def exec (i : Instr) (s : State) : Host.Outcome State Fault Refusal :=
  match i with
  | .escape data => Sys2Proof.Machine.execEscape data s
  | .unescape data => Sys2Proof.Machine.execUnescape data s
  | .checksum hdr len data => Sys2Proof.Machine.execChecksum hdr len data s
  | .encode data => Sys2Proof.Machine.execEncode data s
  | .decode data => Sys2Proof.Machine.execDecode data s

end Sys2Proof.Machine
end

