-- ==== Sys2Proof/Machine/Step.lean ====
section
/-! DEFINITION. One step of the machine: one outstanding request is chosen, performed and answered (R31). -/

namespace Sys2Proof.Machine

/-- One step: the chosen request is decoded and performed, or refused; with none outstanding the block waits (R31,
R49, R63). -/
def step (s : State) : Host.Outcome State Fault Refusal :=
  match s.choose with
  | none => .next s.idle
  | some (p, s') =>
    match decode p.request with
    | .ok i => exec i s'
    | .error e => .next (s'.reject e)

/-- `s` with one request outstanding, the one whose byte image has the bits `w`, so that the next step performs it.
It stands for a requester's sending of that request; the order among several is free, so no other may stay
outstanding (log entries 4, 12). -/
def State.withFetchWord (s : State) (nbits w : Nat) : State :=
  { s with pending := [{ requester := Config.firstRequester, request := requestOfTableWord nbits w }] }

end Sys2Proof.Machine
end

