-- ==== Sys2Proof/Machine/RequestText.lean ====
section
/-! DEFINITION. The text forms, which are the requesters' (R68): bytes as hex text (R66, R67) and requests as
lines (R69). Text is a list of characters. -/

namespace Sys2Proof.Machine

/-- The upper-case hex digit of a value 0 to 15 (R66). -/
def hexDigit (n : Nat) : Char := if n < 10 then Char.ofNat (48 + n) else Char.ofNat (55 + n)

/-- Two hex digits (R66). -/
def byteText (b : U8) : List Char := [hexDigit (b.toNat / 16), hexDigit (b.toNat % 16)]

/-- The hex rendering: one space between bytes and none at either end (R66). -/
def hexRender : List U8 → List Char
  | [] => []
  | [b] => byteText b
  | b :: c :: rest => byteText b ++ ' ' :: hexRender (c :: rest)

/-- The value of a hex digit, lower-case digits among them (R67; PRESUMED in the
spec's D20, log entry 13); none for any other character. -/
def hexValue (c : Char) : Option Nat :=
  if 48 ≤ c.toNat ∧ c.toNat ≤ 57 then some (c.toNat - 48)
  else if 65 ≤ c.toNat ∧ c.toNat ≤ 70 then some (c.toNat - 55)
  else if 97 ≤ c.toNat ∧ c.toNat ≤ 102 then some (c.toNat - 87)
  else none

/-- Digit values in pairs, an odd last one dropped (R67). -/
def pairDigits : List Nat → List U8
  | hi :: lo :: rest => BitVec.ofNat 8 (16 * hi + lo) :: pairDigits rest
  | [_] => []
  | [] => []

/-- Hex parsing: every other character stripped, then pairs (R67). -/
def hexParse (text : List Char) : List U8 := pairDigits (text.filterMap hexValue)

/-- A byte operand of a line: a literal, or `R.ck` of an earlier result (R69). -/
inductive ByteOperand where
  | byte (b : U8)
  | ckOf (result : String)
deriving DecidableEq, Repr

/-- A sequence operand of a line: a literal, or `R.bytes` or `R.frame` of an earlier result (R69). -/
inductive SeqOperand where
  | bytes (b : List U8)
  | bytesOf (result : String)
  | frameOf (result : String)
deriving DecidableEq, Repr

/-- The request of a line: a mnemonic of R62 and its operands (R69), or a whole record. R69 has no form for a request
that no mnemonic names, and program P4 of 95_test_vectors.md has such a line, `R2 <- request with op 0x00`, its record
beside it: that a line may give a whole record is the model's choice (DESIGN CHOICE, log entry 20). -/
inductive LineRequest where
  | escape (data : SeqOperand)
  | unescape (data : SeqOperand)
  | checksum (hdr len : ByteOperand) (data : SeqOperand)
  | encode (data : SeqOperand)
  | decode (data : SeqOperand)
  | record (request : Request)
deriving DecidableEq, Repr

/-- A line, `R <- MNEMONIC ...` or `MNEMONIC ...` (R69). -/
structure Line where
  result : Option String
  request : LineRequest
deriving DecidableEq, Repr

/-- The responses a requester program has named so far, the latest first (R69). -/
abbrev Named := List (String × Response)

/-- The value of a byte operand; none where the named response has no `ck` field (R69). -/
def byteValue (named : Named) : ByteOperand → Option U8
  | .byte b => some b
  | .ckOf r =>
    match named.lookup r with
    | some (.ok (.checksum ck)) => some ck
    | _ => none

/-- The value of a sequence operand; none where the named response has no such field (R69, R30). -/
def seqValue (named : Named) : SeqOperand → Option (List U8)
  | .bytes b => some b
  | .bytesOf r =>
    match named.lookup r with
    | some (.ok (.escaped bytes)) => some bytes
    | some (.ok (.unescaped bytes _)) => some bytes
    | _ => none
  | .frameOf r =>
    match named.lookup r with
    | some (.ok (.frame frame)) => some frame
    | _ => none

/-- The record of a line's request, its operands evaluated: that of its operation (R69), or the one it gives (log
entry 20). -/
def requestValue (named : Named) : LineRequest → Option Request
  | .escape d => (seqValue named d).map fun data => encode (.escape data)
  | .unescape d => (seqValue named d).map fun data => encode (.unescape data)
  | .checksum h l d =>
    match byteValue named h, byteValue named l, seqValue named d with
    | some hdr, some len, some data => some (encode (.checksum hdr len data))
    | _, _, _ => none
  | .encode d => (seqValue named d).map fun data => encode (.encode data)
  | .decode d => (seqValue named d).map fun data => encode (.decode data)
  | .record r => some r

/-- The encoding of a line: its request record (R69). -/
def lineEncoding (named : Named) (l : Line) : Option Request := requestValue named l.request

/-- The text of a byte operand (R69). -/
def byteOperandText : ByteOperand → List Char
  | .byte b => byteText b
  | .ckOf r => r.toList ++ ".ck".toList

/-- The text of a sequence operand (R69). -/
def seqOperandText : SeqOperand → List Char
  | .bytes b => '[' :: hexRender b ++ [']']
  | .bytesOf r => r.toList ++ ".bytes".toList
  | .frameOf r => r.toList ++ ".frame".toList

/-- The text of a line's request (R69). Of a whole record it names the op alone, as program P4 does (log entry 20). -/
def requestText : LineRequest → List Char
  | .escape d => "ESCAPE ".toList ++ seqOperandText d
  | .unescape d => "UNESCAPE ".toList ++ seqOperandText d
  | .checksum h l d =>
    "CHECKSUM ".toList ++ byteOperandText h ++ ", ".toList ++ byteOperandText l ++ ", ".toList ++ seqOperandText d
  | .encode d => "ENCODE ".toList ++ seqOperandText d
  | .decode d => "DECODE ".toList ++ seqOperandText d
  | .record r => "request with op 0x".toList ++ byteText r.op

/-- The text of a line (R69). -/
def lineText (l : Line) : List Char :=
  match l.result with
  | some r => r.toList ++ " <- ".toList ++ requestText l.request
  | none => requestText l.request

end Sys2Proof.Machine
end

