-- ==== Sys2Proof/Machine/Requester.lean ====
section
/-! DEFINITION. A requester program: request lines, each sent when the response before it has arrived, on a block
where other requesters' requests may be outstanding (R159, R168, R177, R178). -/

namespace Sys2Proof.Machine

/-- A requester program as far as it has run. -/
structure ProgramRun where
  /-- the responses its lines have named, the latest first (R69) -/
  named : Named
  /-- the responses to its requests, in the order of its lines, each paired with its request: at the end of the run
  its end state (R178) -/
  received : List Answer
  /-- the block after it -/
  block : State
deriving DecidableEq, Repr

/-- A program before its first line. -/
def ProgramRun.start (s : State) : ProgramRun := { named := [], received := [], block := s }

/-- The responses named after a line's response has arrived (R69). -/
def nameResponse (l : Line) (response : Response) (named : Named) : Named :=
  match l.result with
  | some r => (r, response) :: named
  | none => named

/-- A requester waits: the block steps until every request the requester sent has its response, `steps` times at the
most (R168, R178). The block may answer other requesters before (R49). -/
def awaitResponses (requester : Fin Config.requesters) : Nat → State → Option State
  | 0, s => if s.runEnded requester then some s else none
  | steps + 1, s =>
    if s.runEnded requester then some s
    else
      match step s with
      | .next t => awaitResponses requester steps t
      | .fault _ => none
      | .refused _ => none

/-- The response to a request the requester sent at `before`, found at `after` among those it received since: its
own, paired with that request (R178). Requests that are equal have equal responses (R45; log entry 19). -/
def responseSince (requester : Fin Config.requesters) (request : Request) (before after : State) : Option Answer :=
  ((after.received requester).drop (before.received requester).length).find? fun a => decide (a.request = request)

/-- One line of a program: its request is sent, the requester waits, its response is read (R168). As many steps as
requests are outstanding are enough. None where an operand has no value. -/
def runLine (requester : Fin Config.requesters) (l : Line) (run : ProgramRun) : Option ProgramRun :=
  match lineEncoding run.named l with
  | none => none
  | some r =>
    match awaitResponses requester (run.block.pending.length + 1) (run.block.submit requester r) with
    | none => none
    | some t =>
      (responseSince requester r run.block t).map fun a =>
        { named := nameResponse l a.response run.named, received := run.received ++ [a], block := t }

/-- A program, line after line (R177); its run ends when every request it sent has its response (R178). -/
def runLines (requester : Fin Config.requesters) : List Line → ProgramRun → Option ProgramRun
  | [], run => some run
  | l :: rest, run =>
    match runLine requester l run with
    | some next => runLines requester rest next
    | none => none

end Sys2Proof.Machine
end

