-- ==== Sys2Proof/WellFormed.lean ====
section
/-! DEFINITION. The operations the block gives a meaning: those whose operand is within the limits of R64 and
R116. Every other operation is still answered, with a refusal in its response (R147). -/

namespace Sys2Proof

/-- The operand is no longer than `P_MAX_SEQ` (R64). -/
def Instr.withinMaxSeq (i : Instr) : Bool := decide (i.data.length ≤ Config.maxSeq)

/-- The envelope of an ENCODE is no longer than 255 bytes (R116). -/
def Instr.withinEnvelope : Instr → Bool
  | .encode data => decide (data.length ≤ 255)
  | .escape _ => true
  | .unescape _ => true
  | .checksum _ _ _ => true
  | .decode _ => true

/-- The operation is one the block performs: no refusal reason of R147 applies to it. -/
def Instr.wellFormed (i : Instr) : Bool := i.withinMaxSeq && i.withinEnvelope

end Sys2Proof
end

