-- ==== Sys2Proof/Safety.lean ====
section
/-! DEFINITION. What counts as a right run, in the terms the claims use: what serving a request does to the state, the
response the rules give, the invariant of the machine, executions with requesters, and the wire forms of the rules
written apart from the operations that compute them. -/

namespace Sys2Proof.Safety

open Sys2Proof.Machine

/-- `t` is `s` after the request `p` in service was answered with `response`: `p` left `pending`, one answer was
added, and nothing else changed (R31, R22). -/
def Served (s t : State) (p : Submission) (others : List Submission) (response : Response) : Prop :=
  t.pending = others ∧
  t.answered = s.answered ++ [{ requester := p.requester, request := p.request, response := response }] ∧
  t.cmdTable = s.cmdTable ∧ t.subTable = s.subTable ∧ t.turn = s.turn

/-- Performing `i` in `s` answers a next state in which `p` was served with `response`. -/
def Performs (i : Instr) (s : State) (p : Submission) (others : List Submission) (response : Response) : Prop :=
  ∃ t, exec i s = .next t ∧ Served s t p others response

/-- The response the rules give to an operation: a function of it and the registry tables alone (R31). -/
def instrResponse (cmds subs : RegistryTable) : Instr → Response
  | .escape data => escapeResponse data
  | .unescape data => unescapeResponse data
  | .checksum hdr len data => checksumResponse hdr len data
  | .encode data => encodeResponse data
  | .decode data => decodeResponse cmds subs data

/-- The response the rules give to a request (R31, R63). -/
def requestResponse (cmds subs : RegistryTable) (r : Request) : Response :=
  match decode r with
  | .ok i => instrResponse cmds subs i
  | .error e => .refused (rejectReason e)

/-- The registry tables hold the contents of R106 and R107 (R111, R163). -/
def TablesLoaded (s : State) : Prop := s.cmdTable = commandTable ∧ s.subTable = subcommandTable

/-- Every response delivered is the one the rules give its request (R48). -/
def AnswersFollowRules (s : State) : Prop :=
  ∀ a ∈ s.answered, a.response = requestResponse commandTable subcommandTable a.request

/-- The requests a requester has sent: those answered, then those outstanding (R31, R178). -/
def sentBy (requester : Fin Config.requesters) (s : State) : List Request :=
  (s.received requester).map Answer.request ++
    (s.pending.filter fun p => decide (p.requester = requester)).map Submission.request

/-- The end state R178 gives a program: for each line its request and the response the rules give that request, as a
function of the lines and the registry tables alone. None where an operand of a line has no value (R69). -/
def programAnswers (requester : Fin Config.requesters) (cmds subs : RegistryTable) :
    List Line → Named → Option (List Answer)
  | [], _ => some []
  | l :: rest, named =>
    match lineEncoding named l with
    | none => none
    | some r =>
      (programAnswers requester cmds subs rest (nameResponse l (requestResponse cmds subs r) named)).map
        fun answers => ⟨requester, r, requestResponse cmds subs r⟩ :: answers

/-- The invariant of the machine. -/
structure Inv (s : State) : Prop where
  tables : TablesLoaded s
  answers : AnswersFollowRules s

/-- An execution of the block and its requesters: each transition is a step, or a requester sending a request
(R32). -/
def Execution (σ : Nat → State) : Prop :=
  ∀ n, step (σ n) = .next (σ (n + 1)) ∨ ∃ requester request, σ (n + 1) = (σ n).submit requester request

/-- The fairness assumption of R161: every request outstanding at some time is answered at a later one. -/
def WeaklyFair (σ : Nat → State) : Prop :=
  ∀ n, ∀ p ∈ (σ n).pending, ∃ m ≥ n, ∃ response,
    answerOf p response ∈ (σ m).answered.drop (σ n).answered.length

/-- The state with its requesters renamed (R160). -/
def relabel (f : Fin Config.requesters → Fin Config.requesters) (s : State) : State :=
  { s with
    pending := s.pending.map fun p => { p with requester := f p.requester }
    answered := s.answered.map fun a => { a with requester := f a.requester } }

/-- A request with the fields its format ignores set to 0x00 (R29, R69). -/
def clearIgnored (r : Request) : Request := if r.op = 0x03#8 then r else { r with hdr := 0x00#8, len := 0x00#8 }

/-- The state with every request so changed. -/
def clearIgnoredAll (s : State) : State :=
  { s with
    pending := s.pending.map fun p => { p with request := clearIgnored p.request }
    answered := s.answered.map fun a => { a with request := clearIgnored a.request } }

/-- The result is of the kind R30 gives the operation. -/
def resultFits : Instr → Result → Prop
  | .escape _, .escaped _ => True
  | .unescape _, .unescaped _ _ => True
  | .checksum _ _ _, .checksum _ => True
  | .encode _, .frame _ => True
  | .decode _, .decoded _ => True
  | _, _ => False

/-- A response without the two name fields of a breakdown (R112). -/
def eraseNames : Response → Response
  | .ok (.decoded (.breakdown b)) => .ok (.decoded (.breakdown { b with cmdName := none, subName := none }))
  | response => response

/-- The on-wire bytes of an envelope byte, as the table of R57 lists them. -/
def wireByte (b : U8) : List U8 :=
  if b = 0xFD#8 then [0xFD#8, 0x02#8]
  else if b = 0xFE#8 then [0xFD#8, 0x01#8]
  else if b = 0xFF#8 then [0xFD#8, 0x00#8]
  else [b]

/-- The set of protected values (R88). -/
def protectedSet : List U8 := [0xFE#8, 0xFF#8, 0xFD#8]

/-- The number of protected bytes of a sequence (R61). -/
def protectedCount (data : List U8) : Nat := data.countP fun b => decide (b ∈ protectedSet)

/-- The exact sum of a byte sequence (R98). -/
def byteSum (data : List U8) : Nat := (data.map BitVec.toNat).sum

/-- The checksum of R97 in closed form. -/
def checksumSum (hdr len : U8) (data : List U8) : U8 :=
  BitVec.ofNat 8 ((hdr.toNat + len.toNat + byteSum data) % 128)

/-- The frame of R55, laid out by the table of R57. -/
def wireFrame (envelope : List U8) : List U8 :=
  [0xFE#8, BitVec.ofNat 8 envelope.length] ++ envelope.flatMap wireByte ++
    [checksumSum 0xFE#8 (BitVec.ofNat 8 envelope.length) envelope, 0xFF#8]

/-- What UNESCAPE reads at one position: one plain byte, or the byte after a 0xFD (R89). -/
inductive Token where
  | plain (b : U8)
  | pair (next : U8)
deriving DecidableEq, Repr

/-- The bytes a token is read from. -/
def Token.wire : Token → List U8
  | .plain b => [b]
  | .pair next => [0xFD#8, next]

/-- The byte a token yields: a plain byte itself, the complement of the byte after a 0xFD (R89, R92). -/
def Token.value : Token → U8
  | .plain b => b
  | .pair next => 0xFF#8 - next

/-- The marker a token yields (R91). -/
def Token.mark : Token → Bool
  | .plain _ => false
  | .pair _ => true

/-- A reading left to right: a 0xFD is a plain byte only where it is the last byte (R89, R90). -/
def readable : List Token → Prop
  | [] => True
  | [_] => True
  | .plain b :: rest => b ≠ 0xFD#8 ∧ readable rest
  | .pair _ :: rest => readable rest

/-- The bytes a reading covers. -/
def wireOf (tokens : List Token) : List U8 := tokens.flatMap Token.wire

/-- The breakdown R123 gives the input `h, l`, a reading of the escaped envelope, `c, t`; `dest` is its first byte. -/
def breakdownSpec (cmds subs : RegistryTable) (h l : U8) (tokens : List Token) (dest c t : U8) : Breakdown :=
  let U := tokens.map Token.value
  let expected := checksumSum h l U
  { header := h
    headerValid := decide (h = 0xFE#8)
    length := l
    envEscaped := wireOf tokens
    envUnescaped := U
    envMarks := tokens.map Token.mark
    dest := dest
    destBroadcast := decide (dest = 0x00#8)
    cmd := if h2 : 2 ≤ U.length then some U[1] else none
    cmdName := if h2 : 2 ≤ U.length then some (cmdName cmds U[1]) else none
    sub := if h3 : 3 ≤ U.length then some U[2] else none
    subName := if h3 : 3 ≤ U.length then some (subName subs U[2]) else none
    checksum := c
    checksumExpected := expected
    checksumValid := decide (c = expected)
    tail := t
    tailValid := decide (t = 0xFF#8) }

/-- The upper-case hex digits, by value (R66). -/
def upperDigits : List Char := ['0', '1', '2', '3', '4', '5', '6', '7', '8', '9', 'A', 'B', 'C', 'D', 'E', 'F']

/-- The lower-case hex digits, by value (R67; log entry 13). -/
def lowerDigits : List Char := ['0', '1', '2', '3', '4', '5', '6', '7', '8', '9', 'a', 'b', 'c', 'd', 'e', 'f']

/-- The name an extra map gives a code (R8). -/
def extraName (extra : List (U8 × String)) (code : U8) : Option String :=
  (extra.find? fun p => decide (p.1 = code)).map Prod.snd

/-- The name of a command code as R106 and R108 give it. -/
def commandName (code : U8) : CodeName :=
  if code = 0x01#8 then ⟨.named, "PING"⟩
  else if code = 0x02#8 then ⟨.named, "LOGIN"⟩
  else if code = 0x20#8 then ⟨.named, "POWER_OUTLETS"⟩
  else if code = 0x21#8 then ⟨.named, "OUTLET_NAME"⟩
  else if code = 0x22#8 then ⟨.named, "OUTLET_COUNT"⟩
  else if code = 0x37#8 then ⟨.named, "EPO"⟩
  else if 0x50 ≤ code.toNat ∧ code.toNat ≤ 0x61 then ⟨.family, Config.sensorFamilyName⟩
  else if 0x70 ≤ code.toNat ∧ code.toNat ≤ 0x77 then ⟨.family, Config.thresholdFamilyName⟩
  else match extraName Config.cmdExtra code with
    | some n => ⟨.named, n⟩
    | none => ⟨.unknown, "Unknown Command"⟩

/-- The name of a subcommand code as R107 and R109 give it. -/
def subcommandName (code : U8) : CodeName :=
  if code = 0x02#8 then ⟨.named, "GET"⟩
  else if code = Config.subSet then ⟨.named, "SET"⟩
  else if code = Config.subResponse then ⟨.named, "RESPONSE"⟩
  else match extraName Config.subExtra code with
    | some n => ⟨.named, n⟩
    | none => ⟨.unknown, "Param/Data"⟩

end Sys2Proof.Safety
end

