-- ==== Sys2Proof/Certificates/Slice0/Obligations.lean ====
section
/-! DEFINITION. The statements for the provers, each a rule of the spec or a consequence of several. `Performs i s p
others response` says that `exec i s` answers a next state in which the request `p` in service got `response`, and
that nothing else changed. A docstring names the decisions D<n> of spec/92_eei_decisions.md (the spec's own choices)
and the log entries (the model's) on which a clause rests beyond the source. -/

open Sys2Proof Sys2Proof.Machine Sys2Proof.Safety

/-! ### The five operations -/

/-- R86, R57; the op code is the spec's D3, the operand limit its D6. ESCAPE, selected by op 0x01 whatever `hdr` and
`len` are, is answered for every operand: above
`P_MAX_SEQ` with INPUT_TOO_LONG, else with each byte's on-wire form in order, which is as long as the payload and its
protected bytes together. Nothing else changes. -/
def Obligations.EscapeAnswersWireForm : Prop :=
  ∀ (s : State) (p : Submission) (others : List Submission) (hdr len : U8) (data : List U8),
    s.pending = p :: others →
    decode ⟨0x01#8, hdr, len, data⟩ = .ok (.escape data) ∧
    Performs (.escape data) s p others
      (if Config.maxSeq < data.length then .refused .inputTooLong else .ok (.escaped (data.flatMap wireByte))) ∧
    (data.flatMap wireByte).length = data.length + protectedCount data ∧
    (data.flatMap wireByte).length ≤ 2 * data.length

/-- R88. The protected values are exactly 0xFD, 0xFE and 0xFF: ESCAPE makes two bytes, 0xFD and the complement, of
those and one byte of every other, 0x00 to 0x02 among them; UNESCAPE reacts to 0xFD alone. -/
def Obligations.ProtectedValuesAreExactlyThree : Prop :=
  ∀ (s : State) (p : Submission) (others : List Submission) (b : U8),
    s.pending = p :: others →
    Performs (.escape [b]) s p others (.ok (.escaped
      (if b = 0xFD#8 ∨ b = 0xFE#8 ∨ b = 0xFF#8 then [0xFD#8, 0xFF#8 - b] else [b]))) ∧
    ∀ c : U8, ∃ bytes marks, Performs (.unescape [b, c]) s p others (.ok (.unescaped bytes marks)) ∧
      (marks[0]? = some true ↔ b = 0xFD#8) ∧ (b ≠ 0xFD#8 → bytes = [b, c] ∧ marks = [false, false])

/-- R87. The result of ESCAPE holds no 0xFE and no 0xFF, and each 0xFD in it is followed by 0x00, 0x01 or 0x02. -/
def Obligations.EscapeOutputHidesProtectedValues : Prop :=
  ∀ (s : State) (p : Submission) (others : List Submission) (data : List U8),
    s.pending = p :: others → data.length ≤ Config.maxSeq →
    ∃ out, Performs (.escape data) s p others (.ok (.escaped out)) ∧
      (∀ b ∈ out, b ≠ 0xFE#8 ∧ b ≠ 0xFF#8) ∧
      ∀ k, out[k]? = some 0xFD#8 → ∃ c ∈ [0x00#8, 0x01#8, 0x02#8], out[k + 1]? = some c

/-- R95. Escaping acts byte by byte, and unescaping does not. -/
def Obligations.EscapeActsByteByByte : Prop :=
  (∀ (s : State) (p : Submission) (others : List Submission) (a b : List U8),
    s.pending = p :: others → (a ++ b).length ≤ Config.maxSeq →
    ∃ x y, Performs (.escape a) s p others (.ok (.escaped x)) ∧
      Performs (.escape b) s p others (.ok (.escaped y)) ∧
      Performs (.escape (a ++ b)) s p others (.ok (.escaped (x ++ y)))) ∧
  ∀ (s : State) (p : Submission) (others : List Submission),
    s.pending = p :: others →
    Performs (.unescape [0xFD#8]) s p others (.ok (.unescaped [0xFD#8] [false])) ∧
    Performs (.unescape [0x01#8]) s p others (.ok (.unescaped [0x01#8] [false])) ∧
    Performs (.unescape [0xFD#8, 0x01#8]) s p others (.ok (.unescaped [0xFE#8] [true]))

/-- R89, R91, R92; the op code is the spec's D3, the operand limit its D6, the markers' form its D19. UNESCAPE, selected by op 0x02 whatever `hdr` and `len` are, is answered for every operand: above
`P_MAX_SEQ` with INPUT_TOO_LONG, else with the bytes and markers of the left-to-right reading of the operand, and every
operand has such a reading. Each pair read makes one byte of two, so at least half of the bytes remain. -/
def Obligations.UnescapeAnswersLeftToRightReading : Prop :=
  (∀ (s : State) (p : Submission) (others : List Submission) (hdr len : U8) (tokens : List Token),
    s.pending = p :: others → readable tokens →
    decode ⟨0x02#8, hdr, len, wireOf tokens⟩ = .ok (.unescape (wireOf tokens)) ∧
    Performs (.unescape (wireOf tokens)) s p others
      (if Config.maxSeq < (wireOf tokens).length then .refused .inputTooLong
       else .ok (.unescaped (tokens.map Token.value) (tokens.map Token.mark))) ∧
    tokens.length + (tokens.map Token.mark).count true = (wireOf tokens).length ∧
    (wireOf tokens).length ≤ 2 * tokens.length) ∧
  ∀ data : List U8, ∃ tokens, readable tokens ∧ wireOf tokens = data

/-- R93. UNESCAPE after ESCAPE gives the payload back, with a marker exactly at each protected byte of it. -/
def Obligations.UnescapeInvertsEscape : Prop :=
  ∀ (s : State) (p : Submission) (others : List Submission) (data : List U8),
    s.pending = p :: others → data.length ≤ Config.maxSeq →
    ∃ out, Performs (.escape data) s p others (.ok (.escaped out)) ∧
      (out.length ≤ Config.maxSeq →
        Performs (.unescape out) s p others
          (.ok (.unescaped data (data.map fun b => decide (b ∈ protectedSet)))))

/-- R94. UNESCAPE gives the same bytes, with other markers, for `FD 41` and `BE`, and escaping those bytes gives `BE`
again. -/
def Obligations.UnescapeIsNotInjective : Prop :=
  ∀ (s : State) (p : Submission) (others : List Submission),
    s.pending = p :: others →
    Performs (.unescape [0xFD#8, 0x41#8]) s p others (.ok (.unescaped [0xBE#8] [true])) ∧
    Performs (.unescape [0xBE#8]) s p others (.ok (.unescaped [0xBE#8] [false])) ∧
    Performs (.escape [0xBE#8]) s p others (.ok (.escaped [0xBE#8]))

/-- R90 with R93. A 0xFD after the escaped form of a payload is kept as a literal byte with marker `false`. -/
def Obligations.TrailingEscapeByteIsKept : Prop :=
  ∀ (s : State) (p : Submission) (others : List Submission) (data : List U8),
    s.pending = p :: others → (data.flatMap wireByte).length < Config.maxSeq →
    Performs (.unescape (data.flatMap wireByte ++ [0xFD#8])) s p others
      (.ok (.unescaped (data ++ [0xFD#8]) ((data.map fun b => decide (b ∈ protectedSet)) ++ [false])))

/-- R97, R99; the op code is the spec's D3, the operand limit its D6. CHECKSUM, selected by op 0x03 with `hdr` and
`len` its arguments, is answered for every operand: above `P_MAX_SEQ` with INPUT_TOO_LONG, else with the sum modulo
128, which is in 0 to 127, has bit 7 equal to 0 and is not a protected value. -/
def Obligations.ChecksumAnswersSumModulo128 : Prop :=
  ∀ (s : State) (p : Submission) (others : List Submission) (hdr len : U8) (data : List U8),
    s.pending = p :: others →
    decode ⟨0x03#8, hdr, len, data⟩ = .ok (.checksum hdr len data) ∧
    ∃ ck : U8, ck.toNat = (hdr.toNat + len.toNat + byteSum data) % 128 ∧ ck.toNat ≤ 127 ∧
      ck.getLsbD 7 = false ∧ ck ∉ protectedSet ∧
      Performs (.checksum hdr len data) s p others
        (if Config.maxSeq < data.length then .refused .inputTooLong else .ok (.checksum ck))

/-- R98. Every addend is an unsigned byte, the sum is exact, and the checksum is its remainder on division by 128:
its bits 6 to 0, the mask 0x7F of it. -/
def Obligations.ChecksumIsLowSevenBitsOfExactSum : Prop :=
  ∀ (s : State) (p : Submission) (others : List Submission) (hdr len : U8) (data : List U8),
    s.pending = p :: others → data.length ≤ Config.maxSeq →
    ∃ ck : U8, Performs (.checksum hdr len data) s p others (.ok (.checksum ck)) ∧
      ck.toNat = (hdr.toNat + len.toNat + byteSum data) % 128 ∧
      ck.toNat = (hdr.toNat + len.toNat + byteSum data) &&& 0x7F ∧
      ∀ k < 7, ck.getLsbD k = (hdr.toNat + len.toNat + byteSum data).testBit k

/-- R100. On an envelope of at most 255 bytes the exact sum is at most 65535, and 65534 with header 0xFE; and an
accumulator of any width of 7 bits or more that wraps gives the checksum the machine answers. -/
def Obligations.AccumulatorWidthIsUnobservable : Prop :=
  (∀ (hdr len : U8) (data : List U8), data.length ≤ 255 →
    hdr.toNat + len.toNat + byteSum data ≤ 65535 ∧ (0xFE#8).toNat + len.toNat + byteSum data ≤ 65534) ∧
  ∀ (s : State) (p : Submission) (others : List Submission) (w : Nat) (hdr len : U8) (data : List U8),
    s.pending = p :: others → data.length ≤ Config.maxSeq → 7 ≤ w →
    Performs (.checksum hdr len data) s p others
      (.ok (.checksum (BitVec.ofNat 8
        (data.foldl (fun acc b => (acc + b.toNat) % 2 ^ w) ((hdr.toNat + len.toNat) % 2 ^ w) % 128))))

/-- R101. The checksum depends on header, length and envelope only through their sum modulo 128: not on the order of
the bytes, not on 0x80 added to header or length, not on a byte 0x00 or 0x80 appended; and appending a sequence adds
its sum. -/
def Obligations.ChecksumDependsOnSumModulo128 : Prop :=
  ∀ (s : State) (p : Submission) (others : List Submission) (hdr len : U8) (data : List U8),
    s.pending = p :: others → data.length ≤ Config.maxSeq →
    ∃ ck, Performs (.checksum hdr len data) s p others (.ok (.checksum ck)) ∧
      (∀ hdr' len' data', data'.length ≤ Config.maxSeq →
        (hdr'.toNat + len'.toNat + byteSum data') % 128 = (hdr.toNat + len.toNat + byteSum data) % 128 →
        Performs (.checksum hdr' len' data') s p others (.ok (.checksum ck))) ∧
      (∀ data', data'.Perm data → Performs (.checksum hdr len data') s p others (.ok (.checksum ck))) ∧
      Performs (.checksum (hdr + 0x80#8) len data) s p others (.ok (.checksum ck)) ∧
      Performs (.checksum hdr (len + 0x80#8) data) s p others (.ok (.checksum ck)) ∧
      (∀ b ∈ [0x00#8, 0x80#8], (data ++ [b]).length ≤ Config.maxSeq →
        Performs (.checksum hdr len (data ++ [b])) s p others (.ok (.checksum ck))) ∧
      ∀ more : List U8, (data ++ more).length ≤ Config.maxSeq →
        Performs (.checksum hdr len (data ++ more)) s p others
          (.ok (.checksum (BitVec.ofNat 8 ((ck.toNat + byteSum more) % 128))))

/-- R115, R116; the op code is the spec's D3, the limits and the empty envelope its D5, D6 and D17. ENCODE, selected by
op 0x04 whatever `hdr` and `len` are, is answered for every operand: above
`P_MAX_SEQ` with INPUT_TOO_LONG, else above 255 bytes with ENV_TOO_LONG, else with the frame. -/
def Obligations.EncodeAnswersFrame : Prop :=
  ∀ (s : State) (p : Submission) (others : List Submission) (hdr len : U8) (data : List U8),
    s.pending = p :: others →
    decode ⟨0x04#8, hdr, len, data⟩ = .ok (.encode data) ∧
    Performs (.encode data) s p others
      (if Config.maxSeq < data.length then .refused .inputTooLong
       else if 255 < data.length then .refused .envTooLong
       else .ok (.frame (wireFrame data)))

/-- R55. The frame of an envelope of at most 255 bytes, by byte offset: header, unescaped length, the ESCAPE of the
envelope, the CHECKSUM of the unescaped envelope, tail. -/
def Obligations.FrameIsLaidOutByOffset : Prop :=
  ∀ (s : State) (p : Submission) (others : List Submission) (data : List U8),
    s.pending = p :: others → data.length ≤ 255 →
    ∃ frame esc l ck, Performs (.encode data) s p others (.ok (.frame frame)) ∧
      Performs (.escape data) s p others (.ok (.escaped esc)) ∧
      Performs (.checksum 0xFE#8 l data) s p others (.ok (.checksum ck)) ∧
      l.toNat = data.length ∧ frame.length = esc.length + 4 ∧
      frame[0]? = some 0xFE#8 ∧ frame[1]? = some l ∧ (∀ k < esc.length, frame[2 + k]? = esc[k]?) ∧
      frame[esc.length + 2]? = some ck ∧ frame[esc.length + 3]? = some 0xFF#8

/-- R117. Every frame ENCODE answers has the header, the tail, the unescaped length and a checksum byte below 0x80 at
their places, the ESCAPE of the envelope between, and the length R117 gives. -/
def Obligations.FrameKeepsItsInvariants : Prop :=
  ∀ (s : State) (p : Submission) (others : List Submission) (data : List U8),
    s.pending = p :: others → data.length ≤ 255 →
    ∃ frame esc, Performs (.encode data) s p others (.ok (.frame frame)) ∧
      Performs (.escape data) s p others (.ok (.escaped esc)) ∧
      frame[0]? = some 0xFE#8 ∧ frame[frame.length - 1]? = some 0xFF#8 ∧
      (∃ l, frame[1]? = some l ∧ l.toNat = data.length) ∧
      (∃ c, frame[frame.length - 2]? = some c ∧ c.toNat ≤ 0x7F) ∧
      (frame.drop 2).take (frame.length - 4) = esc ∧
      frame.length = data.length + protectedCount data + 4 ∧ 4 ≤ frame.length ∧ frame.length ≤ 514

/-- R59. In a frame ENCODE answers, the escaped envelope holds no 0xFE or 0xFF, and a 0xFD only before a 0x00, 0x01 or
0x02 of the envelope too; so 0xFE stands only at offset 0 or 1 and 0xFF only at offset 1 or the last. -/
def Obligations.ProtectedValuesStandOnlyAtFrameEdges : Prop :=
  ∀ (s : State) (p : Submission) (others : List Submission) (data : List U8),
    s.pending = p :: others → data.length ≤ 255 →
    ∃ frame, Performs (.encode data) s p others (.ok (.frame frame)) ∧
      (∀ k, 2 ≤ k → k + 2 < frame.length → frame[k]? ≠ some 0xFE#8 ∧ frame[k]? ≠ some 0xFF#8 ∧
        (frame[k]? = some 0xFD#8 →
          k + 3 < frame.length ∧ ∃ c ∈ [0x00#8, 0x01#8, 0x02#8], frame[k + 1]? = some c)) ∧
      (∀ k, frame[k]? = some 0xFE#8 → k = 0 ∨ k = 1) ∧
      ∀ k, frame[k]? = some 0xFF#8 → k = 1 ∨ k + 1 = frame.length

/-- R123, R125 to R136; the op code is the spec's D3, the operand limit its D6, the header in the expected checksum
its D7, the missing command its D8. DECODE, selected by op 0x05 whatever `hdr` and `len` are, is answered for every operand: above
`P_MAX_SEQ` with INPUT_TOO_LONG, below five bytes with `Empty`, else with the breakdown of its fields by position,
whatever their values; and five bytes or more always have that form. -/
def Obligations.DecodeAnswersBreakdown : Prop :=
  (∀ (s : State) (p : Submission) (others : List Submission) (hdr len : U8) (data : List U8),
    s.pending = p :: others →
    decode ⟨0x05#8, hdr, len, data⟩ = .ok (.decode data) ∧
    (Config.maxSeq < data.length → Performs (.decode data) s p others (.refused .inputTooLong)) ∧
    (data.length < 5 → Performs (.decode data) s p others (.ok (.decoded .empty)))) ∧
  (∀ (s : State) (p : Submission) (others : List Submission) (h l c t : U8) (tokens : List Token),
    s.pending = p :: others → readable tokens → tokens ≠ [] → (wireOf tokens).length + 4 ≤ Config.maxSeq →
    ∃ dest, (tokens.map Token.value)[0]? = some dest ∧
      Performs (.decode ([h, l] ++ wireOf tokens ++ [c, t])) s p others
        (.ok (.decoded (.breakdown (breakdownSpec s.cmdTable s.subTable h l tokens dest c t))))) ∧
  ∀ data : List U8, 5 ≤ data.length →
    ∃ h l c t tokens, readable tokens ∧ tokens ≠ [] ∧ data = [h, l] ++ wireOf tokens ++ [c, t]

/-- R125. Fewer than five bytes are answered with `Empty`, status OK, and five or more with a breakdown; the frame of
the empty envelope has four bytes and decodes to `Empty`. -/
def Obligations.DecodeOfTooFewBytesIsEmpty : Prop :=
  ∀ (s : State) (p : Submission) (others : List Submission) (data : List U8),
    s.pending = p :: others → data.length ≤ Config.maxSeq →
    (data.length < 5 → Performs (.decode data) s p others (.ok (.decoded .empty))) ∧
    (5 ≤ data.length → ∃ b, Performs (.decode data) s p others (.ok (.decoded (.breakdown b)))) ∧
    ∃ frame, Performs (.encode []) s p others (.ok (.frame frame)) ∧ frame.length = 4 ∧
      Performs (.decode frame) s p others (.ok (.decoded .empty))

/-- R126, R129, R131, R134, with R127 and R128. The header is the first byte and valid exactly when 0xFE; the tail is
the last and valid exactly when 0xFF; the envelope between is what UNESCAPE makes of the bytes after the length and
before the last two; the destination is its first byte, broadcast exactly when 0x00; the subcommand is its third byte
with that byte's name, and the value, the name and the entry are there exactly when the byte is. -/
def Obligations.DecodeReadsFieldsByPosition : Prop :=
  ∀ (s : State) (p : Submission) (others : List Submission) (data : List U8),
    s.pending = p :: others → 5 ≤ data.length → data.length ≤ Config.maxSeq →
    ∃ b, Performs (.decode data) s p others (.ok (.decoded (.breakdown b))) ∧
      data[0]? = some b.header ∧ (b.headerValid = true ↔ data[0]? = some 0xFE#8) ∧
      data[data.length - 1]? = some b.tail ∧ (b.tailValid = true ↔ data[data.length - 1]? = some 0xFF#8) ∧
      b.envEscaped = (data.take (data.length - 2)).drop 2 ∧
      Performs (.unescape b.envEscaped) s p others (.ok (.unescaped b.envUnescaped b.envMarks)) ∧
      b.envUnescaped[0]? = some b.dest ∧ (b.destBroadcast = true ↔ b.dest = 0x00#8) ∧
      (∀ x, b.envUnescaped[2]? = some x → b.sub = some x ∧ b.subName = some (subName s.subTable x)) ∧
      (b.envUnescaped.length < 3 → b.sub = none ∧ b.subName = none) ∧
      ((∃ e ∈ entries (.breakdown b), e.label = "Subcommand/Parameter") ↔ 3 ≤ b.envUnescaped.length)

/-- R121. Every envelope of 1 to 255 bytes comes back from ENCODE and DECODE, with a valid header, checksum and tail
and its own length, so the strict test of R169 accepts it; the empty envelope's frame decodes to `Empty`. -/
def Obligations.DecodeInvertsEncode : Prop :=
  (∀ (s : State) (p : Submission) (others : List Submission) (e : List U8),
    s.pending = p :: others → 1 ≤ e.length → e.length ≤ 255 →
    ∃ frame b, Performs (.encode e) s p others (.ok (.frame frame)) ∧
      Performs (.decode frame) s p others (.ok (.decoded (.breakdown b))) ∧
      b.envUnescaped = e ∧ b.headerValid = true ∧ b.checksumValid = true ∧ b.tailValid = true ∧
      b.length.toNat = e.length ∧ frameOk (.breakdown b) = true) ∧
  ∀ (s : State) (p : Submission) (others : List Submission),
    s.pending = p :: others →
    ∃ frame, Performs (.encode []) s p others (.ok (.frame frame)) ∧ frame.length = 4 ∧
      Performs (.decode frame) s p others (.ok (.decoded .empty))

/-- R140, R133; the header in the expected checksum is the spec's D7. A frame whose header is changed away from 0xFE
decodes with `header_valid` false and every other field as before, but for the header, the expected checksum and
`checksum_valid`, which is true only for the header 0x7E. -/
def Obligations.ChangedHeaderReachesHeaderAndChecksumFieldsOnly : Prop :=
  ∀ (s : State) (p : Submission) (others : List Submission) (e : List U8) (h : U8),
    s.pending = p :: others → 1 ≤ e.length → e.length ≤ 255 → h ≠ 0xFE#8 →
    ∃ rest b, Performs (.encode e) s p others (.ok (.frame (0xFE#8 :: rest))) ∧
      Performs (.decode (0xFE#8 :: rest)) s p others (.ok (.decoded (.breakdown b))) ∧
      Performs (.decode (h :: rest)) s p others (.ok (.decoded (.breakdown
        { b with
          header := h
          headerValid := false
          checksumExpected := checksumSum h b.length e
          checksumValid := decide (h = 0x7E#8) })))

/-- R135, with R133; the received header in the expected checksum is the spec's D7 (log entry 18). The length field is
the second byte and is not compared with the envelope: another length byte changes the breakdown only in `length` and
in the expected checksum, which is that of R97 for the new length, and `checksum_valid` says whether the checksum
received is that one and nothing of the length. -/
def Obligations.LengthByteIsInformational : Prop :=
  ∀ (s : State) (p : Submission) (others : List Submission) (h l l' : U8) (body : List U8),
    s.pending = p :: others → 3 ≤ body.length → body.length + 2 ≤ Config.maxSeq →
    ∃ b, Performs (.decode (h :: l :: body)) s p others (.ok (.decoded (.breakdown b))) ∧
      b.length = l ∧ b.checksumExpected = checksumSum h l b.envUnescaped ∧
      b.checksumValid = decide (b.checksum = checksumSum h l b.envUnescaped) ∧
      Performs (.decode (h :: l' :: body)) s p others (.ok (.decoded (.breakdown
        { b with
          length := l'
          checksumExpected := checksumSum h l' b.envUnescaped
          checksumValid := decide (b.checksum = checksumSum h l' b.envUnescaped) })))

/-- R142. An escaped envelope that ends in a lone 0xFD is unescaped with that byte kept literally, whatever byte stands
at the checksum position after it. -/
def Obligations.EscapeSplitByEnvelopeEndIsKept : Prop :=
  ∀ (s : State) (p : Submission) (others : List Submission) (h l c t : U8) (e : List U8),
    s.pending = p :: others → (e.flatMap wireByte).length + 5 ≤ Config.maxSeq →
    ∃ b, Performs (.decode ([h, l] ++ e.flatMap wireByte ++ [0xFD#8, c, t])) s p others
        (.ok (.decoded (.breakdown b))) ∧
      b.envUnescaped = e ++ [0xFD#8] ∧
      b.envMarks = (e.map fun x => decide (x ∈ protectedSet)) ++ [false] ∧ b.checksum = c ∧ b.tail = t

/-- R169; the test is the spec's own (D10). The strict test a requester may make on a DECODE result accepts exactly the inputs with header 0xFE, tail
0xFF, a length byte that is the unescaped length and the checksum of R97; it rejects `Empty`. -/
def Obligations.FrameOkAcceptsExactlyStrictFrames : Prop :=
  (∀ (s : State) (p : Submission) (others : List Submission) (h l c t : U8) (tokens : List Token),
    s.pending = p :: others → readable tokens → tokens ≠ [] → (wireOf tokens).length + 4 ≤ Config.maxSeq →
    ∃ d, Performs (.decode ([h, l] ++ wireOf tokens ++ [c, t])) s p others (.ok (.decoded d)) ∧
      (frameOk d = true ↔
        h = 0xFE#8 ∧ t = 0xFF#8 ∧ l.toNat = tokens.length ∧ c = checksumSum h l (tokens.map Token.value))) ∧
  frameOk .empty = false

/-- R137; the shape of the entries is the spec's D10. The entry list of a breakdown the machine answers has the labels and raw bytes of R137 in its order, the
Command and Subcommand/Parameter entries exactly when those codes are present, and the unescaped form and marks beside
the Data Envelope's bytes. -/
def Obligations.EntryListFollowsFieldOrder : Prop :=
  ∀ (s : State) (p : Submission) (others : List Submission) (data : List U8),
    s.pending = p :: others → 5 ≤ data.length → data.length ≤ Config.maxSeq →
    ∃ b, Performs (.decode data) s p others (.ok (.decoded (.breakdown b))) ∧
      (entries (.breakdown b)).map (fun e => (e.label, e.raw)) =
        [("Header", [b.header]), ("Length", [b.length]), ("Data Envelope", b.envEscaped),
          ("Destination", [b.dest])] ++
        (if 2 ≤ b.envUnescaped.length then [("Command", (b.envUnescaped.drop 1).take 1)] else []) ++
        (if 3 ≤ b.envUnescaped.length then [("Subcommand/Parameter", (b.envUnescaped.drop 2).take 1)] else []) ++
        [("Checksum", [b.checksum]), ("Tail", [b.tail])] ∧
      ((entries (.breakdown b)).filter fun e => decide (e.label = "Data Envelope")).map FieldEntry.beside =
        [some (b.envUnescaped, b.envMarks)]

/-- R138 (the spec's D10), as far as the source fixes texts (log entry 11). In the entry list of a breakdown answered
with the registry loaded, the Header entry carries "INVALID Header" exactly when the header is not 0xFE, the Command
entry "Unknown Command" and the Subcommand/Parameter entry "Param/Data" exactly with a code the registry does not hold,
and no other entry carries a text. -/
def Obligations.FixedTextsStandWhereTheSourcePutsThem : Prop :=
  ∀ (s : State) (p : Submission) (others : List Submission) (data : List U8),
    s.pending = p :: others → TablesLoaded s → 5 ≤ data.length → data.length ≤ Config.maxSeq →
    ∃ b, Performs (.decode data) s p others (.ok (.decoded (.breakdown b))) ∧
      (entries (.breakdown b)).filterMap (fun e => e.fixedText.map fun text => (e.label, text)) =
        (if data[0]? = some 0xFE#8 then [] else [("Header", "INVALID Header")]) ++
        (if ∃ code, b.envUnescaped[1]? = some code ∧ (commandName code).cls = .unknown
         then [("Command", "Unknown Command")] else []) ++
        (if ∃ code, b.envUnescaped[2]? = some code ∧ (subcommandName code).cls = .unknown
         then [("Subcommand/Parameter", "Param/Data")] else [])

/-! ### The registry -/

/-- R106, R108; the place of the ranges and of the extra names is the spec's D11. The command table after reset names every code as R106 lists it. -/
def Obligations.CommandNamesFollowTheTable : Prop :=
  ∀ code : U8, cmdName State.reset.cmdTable code = commandName code

/-- R107, R109; that the three codes differ is the spec's D11. The subcommand table after reset names every code as R107 lists it, and GET, SET and RESPONSE are
three codes. -/
def Obligations.SubcommandNamesFollowTheTable : Prop :=
  (∀ code : U8, subName State.reset.subTable code = subcommandName code) ∧
  Config.subSet ≠ 0x02#8 ∧ Config.subResponse ≠ 0x02#8 ∧ Config.subSet ≠ Config.subResponse

/-- R111. No step and no request writes the registry tables. -/
def Obligations.RegistryTablesAreNeverWritten : Prop :=
  ∀ s : State, (∃ t, step s = .next t ∧ t.cmdTable = s.cmdTable ∧ t.subTable = s.subTable) ∧
    ∀ requester request, (s.submit requester request).cmdTable = s.cmdTable ∧
      (s.submit requester request).subTable = s.subTable

/-- R112. Other contents of the registry change nothing but the two name fields of a breakdown. -/
def Obligations.RegistryContentsReachNamesOnly : Prop :=
  ∀ (i : Instr) (s : State) (cmds subs : RegistryTable) (p : Submission) (others : List Submission),
    s.pending = p :: others →
    ∃ response response', Performs i s p others response ∧
      Performs i { s with cmdTable := cmds, subTable := subs } p others response' ∧
      eraseNames response' = eraseNames response

/-! ### Requests, refusals and the step -/

/-- R63 (the spec's D3). A request whose op is not 0x01 to 0x05 is refused with BAD_OP when it is its turn, whatever its operands, and
has no other effect. -/
def Obligations.ReservedOpIsRefused : Prop :=
  ∀ (s s' : State) (p : Submission),
    s.choose = some (p, s') → (p.request.op.toNat = 0 ∨ 5 < p.request.op.toNat) →
    ∃ t others, s'.pending = p :: others ∧ step s = .next t ∧ Served s' t p others (.refused .badOp)

/-- R149 (the spec's D9; the reasons are its D4). The response to a request reports the first reason that applies of BAD_OP, INPUT_TOO_LONG and ENV_TOO_LONG,
and a request no reason applies to is performed: its response is OK. -/
def Obligations.RefusalReasonsHaveOnePriority : Prop :=
  ∀ s : State, s.pending ≠ [] →
    ∃ t p response, p ∈ s.pending ∧ step s = .next t ∧
      t.answered = s.answered ++ [⟨p.requester, p.request, response⟩] ∧
      (if p.request.op.toNat = 0 ∨ 5 < p.request.op.toNat then response = .refused .badOp
       else if Config.maxSeq < p.request.data.length then response = .refused .inputTooLong
       else if p.request.op = 0x04#8 ∧ 255 < p.request.data.length then response = .refused .envTooLong
       else ∃ result, response = .ok result)

/-- R30, R64, R116, R147. An operation whose operand is within the limits is performed: its response is OK with a result
of the kind R30 gives it. One whose operand is not is refused. Every operation answers a next state. -/
def Obligations.OperationsWithinLimitsArePerformed : Prop :=
  ∀ (i : Instr) (s : State) (p : Submission) (others : List Submission),
    s.pending = p :: others →
    (i.wellFormed = true → ∃ result, resultFits i result ∧ Performs i s p others (.ok result)) ∧
    (i.wellFormed = false → ∃ reason, Performs i s p others (.refused reason))

/-- R65, R148 (the spec's D4). The status byte of each response, and no other value; a result is carried exactly with status OK. -/
def Obligations.StatusBytesAreThoseListed : Prop :=
  (∀ result, statusByte (.ok result) = 0x00#8) ∧ statusByte (.refused .badOp) = 0x01#8 ∧
  statusByte (.refused .inputTooLong) = 0x02#8 ∧ statusByte (.refused .envTooLong) = 0x03#8 ∧
  ∀ response, (statusByte response).toNat ≤ 3 ∧ (statusByte response = 0x00#8 ↔ ∃ r, resultOf response = some r)

/-- R31, as far as one step goes. Every step answers: with requests outstanding, exactly one of them, with the response
the rules give it as a function of it and the registry tables alone. No step faults and none is refused by the model.
The model's own choices: that the requests outstanding and the answers are lists of the state, the others staying
outstanding in order (log entry 6), and that the choice advances a counter (log entry 7). -/
def Obligations.EveryStepAnswersOneOutstandingRequest : Prop :=
  ∀ s : State, s.pending ≠ [] →
    ∃ t p before after, s.pending = before ++ p :: after ∧ step s = .next t ∧ t.pending = before ++ after ∧
      t.answered = s.answered ++
        [⟨p.requester, p.request, requestResponse s.cmdTable s.subTable p.request⟩] ∧
      t.cmdTable = s.cmdTable ∧ t.subTable = s.subTable ∧ t.turn = s.turn + 1

/-- The model's own choice, log entries 8 and 9: with no request outstanding a step waits and an operation has nothing
to answer, and nothing changes. -/
def Obligations.NothingOutstandingNothingChanges : Prop :=
  ∀ s : State, s.pending = [] → step s = .next s ∧ ∀ i : Instr, exec i s = .next s

/-- R62, R31. Where the chosen request decodes to an operation, the step is that operation performed with the request in
service; where one request is outstanding, it is the one chosen. The choice advances the model's own counter (log
entry 7). -/
def Obligations.StepPerformsDecodedRequest : Prop :=
  (∀ (s s' : State) (p : Submission) (i : Instr),
    s.choose = some (p, s') → decode p.request = .ok i → step s = exec i s') ∧
  (∀ (s : State) (p : Submission) (i : Instr),
    s.pending = [p] → decode p.request = .ok i → step s = exec i { s with turn := s.turn + 1 }) ∧
  ∀ (s : State) (i : Instr) (requester : Fin Config.requesters),
    step { s with pending := [⟨requester, encode i⟩] } =
      exec i { s with pending := [⟨requester, encode i⟩], turn := s.turn + 1 }

/-- R160. Which requester sent a request changes no response: the step of the renamed state is the renamed step. That
both steps choose the same request is the model's own choice (log entry 7: the choice reads the counter alone), since
R49 leaves the order free. -/
def Obligations.RequesterIdentityIsNotRead : Prop :=
  ∀ (f : Fin Config.requesters → Fin Config.requesters) (s : State),
    ∃ t, step s = .next t ∧ step (relabel f s) = .next (relabel f t)

/-- R29, R64 (the spec's D2). `hdr` and `len` are ignored by every operation but CHECKSUM: with them set to 0x00 the
step is the same but for the requests recorded. That both steps choose the same request is the model's own choice (log
entry 7: the choice reads the counter alone), since R49 leaves the order free. -/
def Obligations.IgnoredFieldsAreNotRead : Prop :=
  ∀ s : State, ∃ t, step s = .next t ∧ step (clearIgnoredAll s) = .next (clearIgnoredAll t)

/-- R164 (the spec's D14), R48. The first request after reset is handled like every later one: with the registry
loaded, a request sent to an idle block is answered alike whatever was answered before. That nothing is outstanding
and nothing answered after reset is the model's own choice (log entry 6). -/
def Obligations.FirstRequestIsHandledLikeEveryLaterOne : Prop :=
  State.reset.pending = [] ∧ State.reset.answered = [] ∧
  ∀ (s : State) (requester : Fin Config.requesters) (request : Request),
    s.pending = [] → TablesLoaded s →
    ∃ t t' response, step (State.reset.submit requester request) = .next t ∧
      step (s.submit requester request) = .next t' ∧
      t.answered = [⟨requester, request, response⟩] ∧
      t'.answered = s.answered ++ [⟨requester, request, response⟩]

/-! ### Encoding -/

/-- R62, R64, R69 (the spec's D3, D2, D18); the bytes are log entry 4. Decoding an operation's request gives it back, as a record and as bytes; and a request that decodes
is that operation's request in every field its format reads. -/
def Obligations.DecodeAndEncodeAgree : Prop :=
  (∀ i : Instr, decodeBytes (encodeBytes i) = .ok i) ∧
  ∀ (r : Request) (i : Instr), decode r = .ok i ↔ (1 ≤ r.op.toNat ∧ r.op.toNat ≤ 5 ∧ encode i = clearIgnored r)

/-- R62 (the spec's D3); the order of the bytes is log entry 4. The five words of the opcode table, bit by bit, with operand bytes after them. -/
def Obligations.OpcodeWordsDecode : Prop :=
  decodeTableWord 8 0b00000001 = some (.escape []) ∧ decodeTableWord 8 0b00000010 = some (.unescape []) ∧
  decodeTableWord 8 0b00000011 = some (.checksum 0#8 0#8 []) ∧ decodeTableWord 8 0b00000100 = some (.encode []) ∧
  decodeTableWord 8 0b00000101 = some (.decode []) ∧
  decodeTableWord 32 0xAA03FE03 = some (.checksum 0xFE#8 0x03#8 [0xAA#8]) ∧
  decodeTableWord 8 0b00000000 = none ∧ decodeTableWord 8 0b00000110 = none ∧ decodeTableWord 8 0b11111111 = none

/-! ### Text -/

/-- R66, R67 (the spec's D20; the digit set is log entry 13). The hex digits are 0 to 9, A to F and a to f with their
values, and no other character is one. Parsing the rendering of a byte sequence gives it back, and so does any text
with the same hex digits and other characters among them, or one character more. -/
def Obligations.HexParseInvertsRender : Prop :=
  (∀ (c : Char) (v : Nat), hexValue c = some v ↔ upperDigits[v]? = some c ∨ lowerDigits[v]? = some c) ∧
  (∀ bytes : List U8, hexParse (hexRender bytes) = bytes) ∧
  ∀ (bytes : List U8) (text : List Char),
    text.filterMap hexValue = (hexRender bytes).filterMap hexValue →
    hexParse text = bytes ∧
    ∀ c : Char, hexParse (text ++ [c]) = bytes

/-- R66 (the spec's D20). The rendering of a byte sequence has two upper-case digits for each byte, one space between bytes and nothing
else. -/
def Obligations.HexRenderHasTheStatedForm : Prop :=
  ∀ bytes : List U8,
    (hexRender bytes).length = 3 * bytes.length - 1 ∧
    ∀ (k : Nat) (b : U8), bytes[k]? = some b →
      (hexRender bytes)[3 * k]? = upperDigits[b.toNat / 16]? ∧
      (hexRender bytes)[3 * k + 1]? = upperDigits[b.toNat % 16]? ∧
      (k + 1 < bytes.length → (hexRender bytes)[3 * k + 2]? = some ' ')

/-- R69 (the spec's D18). The encoding of a request line is the record with the op of its mnemonic, the named fields
set, and `hdr` and `len` 0x00 in format S; an operand may be a field of an earlier response. That a line may give a
whole record instead, which is then its encoding, is the model's own choice (log entry 20). -/
def Obligations.LineEncodingSetsNamedFieldsOnly : Prop :=
  ∀ (named : Named) (d : SeqOperand) (h l : ByteOperand) (data : List U8) (hdr len : U8) (r : Option String),
    seqValue named d = some data → byteValue named h = some hdr → byteValue named l = some len →
    lineEncoding named ⟨r, .escape d⟩ = some ⟨0x01#8, 0x00#8, 0x00#8, data⟩ ∧
    lineEncoding named ⟨r, .unescape d⟩ = some ⟨0x02#8, 0x00#8, 0x00#8, data⟩ ∧
    lineEncoding named ⟨r, .checksum h l d⟩ = some ⟨0x03#8, hdr, len, data⟩ ∧
    lineEncoding named ⟨r, .encode d⟩ = some ⟨0x04#8, 0x00#8, 0x00#8, data⟩ ∧
    lineEncoding named ⟨r, .decode d⟩ = some ⟨0x05#8, 0x00#8, 0x00#8, data⟩ ∧
    ∀ request, lineEncoding named ⟨r, .record request⟩ = some request

/-! ### Whole runs -/

/-- The registry stays loaded and every response delivered is the one the rules give its request: every step and every
request sent keeps this. -/
def Obligations.InvariantIsKept : Prop :=
  ∀ s : State, Inv s → (∃ t, step s = .next t ∧ Inv t) ∧ ∀ requester request, Inv (s.submit requester request)

/-- The machine after reset meets the invariant. -/
def Obligations.InvariantHoldsAtReset : Prop := Inv State.reset

/-- R178 (the spec's D24), R31, R49. From any state, as many steps as requests are outstanding answer every one of
them exactly once, each with the response the rules give it, in some order, and leave the registry as it was; the run
of every requester's program has then ended. -/
def Obligations.RunAnswersEveryRequestOnce : Prop :=
  ∀ s : State, ∃ (t : State) (order : List Submission),
    Host.Core.run Sys2Proof.core s.pending.length s = .next t ∧ t.pending = [] ∧
    (∀ requester, t.runEnded requester = true) ∧ order.Perm s.pending ∧
    t.answered = s.answered ++
      order.map (fun p => ⟨p.requester, p.request, requestResponse s.cmdTable s.subTable p.request⟩) ∧
    t.cmdTable = s.cmdTable ∧ t.subTable = s.subTable

/-- R161 (the spec's D16). An execution in which the requesters stop sending at some time is weakly fair: every request outstanding is
answered later. -/
def Obligations.FiniteRequestsGiveFairness : Prop :=
  ∀ σ : Nat → State, Execution σ → (∃ N, ∀ n ≥ N, step (σ n) = .next (σ (n + 1))) → WeaklyFair σ

/-- R178 (the spec's D24), R31. Every request a requester sent is answered or outstanding, once: a step changes no
requester's list of sent requests but for its order, and a request sent enters its sender's list alone. The run of a
requester's program has ended exactly when the requests it sent are those it received a response to, whatever others
have outstanding. That the state holds both lists is the model's own choice (log entry 6). -/
def Obligations.RunEndsWhenOwnRequestsAreAnswered : Prop :=
  ∀ (s : State) (q : Fin Config.requesters),
    (∃ t, step s = .next t ∧ (sentBy q t).Perm (sentBy q s)) ∧
    (∀ requester request,
      sentBy q (s.submit requester request) = sentBy q s ++ if requester = q then [request] else []) ∧
    (s.runEnded q = true ↔ (s.received q).map Answer.request = sentBy q s)

/-- R178 (the spec's D24), R168, R22. A program run from any state, with any requests of this and other requesters
outstanding, ends with the list R178 gives it: one response for each line, its own, paired with its request, as the
rules give it; the registry is as it was, and every request its requester sent has its response. Where none of its
requester's requests was outstanding before, what the requester received since is that list and no more. The lines are
those of R69 (the spec's D18). The model's own: that a line may give a whole record (log entry 20), that there is no
run where an operand of a line has no value, of which no rule speaks (log entry 13), and that a program waits after
each line while the others send nothing (log entry 19). -/
def Obligations.ProgramReceivesItsOwnResponses : Prop :=
  ∀ (q : Fin Config.requesters) (lines : List Line) (s : State),
    (programAnswers q s.cmdTable s.subTable lines [] = none → runLines q lines (.start s) = none) ∧
    ∀ answers, programAnswers q s.cmdTable s.subTable lines [] = some answers →
      ∃ run, runLines q lines (.start s) = some run ∧ run.received = answers ∧
        answers.length = lines.length ∧
        run.block.cmdTable = s.cmdTable ∧ run.block.subTable = s.subTable ∧
        (lines ≠ [] → run.block.runEnded q = true) ∧
        (s.runEnded q = true →
          run.block.runEnded q = true ∧ run.block.received q = s.received q ++ answers)
end

