-- ==== Sys2Proof/Laws/State.lean ====
section
/-! SUPPORT. One lemma per field of the state per update, so that no later proof unfolds a record update. -/

namespace Sys2Proof.Laws

open Sys2Proof.Machine

variable (s : State) (p : Submission) (others : List Submission) (response : Response)
  (requester q : Fin Config.requesters) (request : Request) (nbits w : Nat)

@[simp] theorem reset_cmdTable : State.reset.cmdTable = commandTable := rfl
@[simp] theorem reset_subTable : State.reset.subTable = subcommandTable := rfl
@[simp] theorem reset_pending : State.reset.pending = [] := rfl
@[simp] theorem reset_answered : State.reset.answered = [] := rfl
@[simp] theorem reset_turn : State.reset.turn = 0 := rfl

@[simp] theorem submit_cmdTable : (s.submit requester request).cmdTable = s.cmdTable := rfl
@[simp] theorem submit_subTable : (s.submit requester request).subTable = s.subTable := rfl
@[simp] theorem submit_pending :
    (s.submit requester request).pending = s.pending ++ [⟨requester, request⟩] := rfl
@[simp] theorem submit_answered : (s.submit requester request).answered = s.answered := rfl
@[simp] theorem submit_turn : (s.submit requester request).turn = s.turn := rfl

@[simp] theorem serve_cmdTable : (s.serve p others).cmdTable = s.cmdTable := rfl
@[simp] theorem serve_subTable : (s.serve p others).subTable = s.subTable := rfl
@[simp] theorem serve_pending : (s.serve p others).pending = p :: others := rfl
@[simp] theorem serve_answered : (s.serve p others).answered = s.answered := rfl
@[simp] theorem serve_turn : (s.serve p others).turn = s.turn + 1 := rfl

@[simp] theorem deliver_cmdTable : (s.deliver p others response).cmdTable = s.cmdTable := rfl
@[simp] theorem deliver_subTable : (s.deliver p others response).subTable = s.subTable := rfl
@[simp] theorem deliver_pending : (s.deliver p others response).pending = others := rfl
@[simp] theorem deliver_answered :
    (s.deliver p others response).answered = s.answered ++ [answerOf p response] := rfl
@[simp] theorem deliver_turn : (s.deliver p others response).turn = s.turn := rfl

@[simp] theorem withFetchWord_cmdTable : (s.withFetchWord nbits w).cmdTable = s.cmdTable := rfl
@[simp] theorem withFetchWord_subTable : (s.withFetchWord nbits w).subTable = s.subTable := rfl
@[simp] theorem withFetchWord_pending :
    (s.withFetchWord nbits w).pending = [⟨Config.firstRequester, requestOfTableWord nbits w⟩] := rfl
@[simp] theorem withFetchWord_answered : (s.withFetchWord nbits w).answered = s.answered := rfl
@[simp] theorem withFetchWord_turn : (s.withFetchWord nbits w).turn = s.turn := rfl

/-! ### What one requester sees of the state (R178) -/

theorem runEnded_iff : s.runEnded q = true ↔ ∀ p ∈ s.pending, p.requester ≠ q := by simp [State.runEnded]

@[simp] theorem submit_received : (s.submit requester request).received q = s.received q := rfl
@[simp] theorem serve_received : (s.serve p others).received q = s.received q := rfl
@[simp] theorem serve_runEnded :
    (s.serve p others).runEnded q = (decide (p.requester ≠ q) && others.all fun x => decide (x.requester ≠ q)) := rfl
@[simp] theorem deliver_runEnded :
    (s.deliver p others response).runEnded q = others.all fun x => decide (x.requester ≠ q) := rfl
@[simp] theorem deliver_received : (s.deliver p others response).received q =
    s.received q ++ if p.requester = q then [answerOf p response] else [] := by
  by_cases h : p.requester = q <;> simp [State.received, answerOf, h]
@[simp] theorem withFetchWord_received : (s.withFetchWord nbits w).received q = s.received q := rfl

/-- A block with nothing outstanding owes no requester a response. -/
theorem runEnded_of_pending_nil (h : s.pending = []) : s.runEnded q = true := by simp [State.runEnded, h]

end Sys2Proof.Laws
end

