-- ==== Sys2Proof/Laws/Ops.lean ====
section
/-! SUPPORT. What each shared operation can do, once: the operand limits, the choice of a request, the delivery of a
response, `exec` and `step`. -/

namespace Sys2Proof.Laws

open Sys2Proof.Machine Sys2Proof.Safety

/-! ### Parameters and operand limits -/

theorem maxSeq_ge : 514 ≤ Config.maxSeq := Nat.le_add_right _ _

theorem fitsMaxSeq_iff (data : List U8) : fitsMaxSeq data = true ↔ data.length ≤ Config.maxSeq := by
  simp only [fitsMaxSeq, Config.maxSeq, decide_eq_true_eq]
  omega

theorem limited_of_le {data : List U8} (h : data.length ≤ Config.maxSeq) (r : Response) : limited data r = r := by
  simp [limited, (fitsMaxSeq_iff data).mpr h]

theorem limited_of_lt {data : List U8} (h : Config.maxSeq < data.length) (r : Response) :
    limited data r = .refused .inputTooLong := by
  have : ¬ fitsMaxSeq data = true := by rw [fitsMaxSeq_iff]; omega
  simp [limited, this]

theorem limited_eq_ite (data : List U8) (r : Response) :
    limited data r = if Config.maxSeq < data.length then .refused .inputTooLong else r := by
  split
  · exact limited_of_lt ‹_› r
  · exact limited_of_le (by omega) r

/-! ### Choosing and answering -/

/-- `takeAt` takes one element out of a list that has one, and keeps the others in order. -/
theorem takeAt_split {α : Type} (l : List α) (k : Nat) (h : l ≠ []) :
    ∃ before x after, l = before ++ x :: after ∧ takeAt l k = some (x, before ++ after) := by
  fun_induction takeAt l k with
  | case1 => contradiction
  | case2 x => exact ⟨[], x, [], rfl, rfl⟩
  | case3 x y rest => exact ⟨[], x, y :: rest, rfl, rfl⟩
  | case4 x y rest k ih =>
    obtain ⟨before, z, after, hl, ht⟩ := ih (by simp)
    exact ⟨x :: before, z, after, by simp [hl], by simp [ht]⟩

theorem takeAt_map {α β : Type} (f : α → β) (l : List α) (k : Nat) :
    takeAt (l.map f) k = (takeAt l k).map fun p => (f p.1, p.2.map f) := by
  fun_induction takeAt l k with
  | case1 => rfl
  | case2 => rfl
  | case3 => rfl
  | case4 x y rest k ih =>
    simp only [List.map_cons] at ih ⊢
    simp only [takeAt, ih, Option.map_map]
    rfl

theorem choose_none {s : State} (h : s.pending = []) : s.choose = none := by simp [State.choose, h, takeAt]

theorem choose_one {s : State} {p : Submission} (h : s.pending = [p]) : s.choose = some (p, s.serve p []) := by
  simp [State.choose, h, takeAt]

/-- A choice takes one outstanding request into service, the others staying outstanding in order. -/
theorem choose_split {s : State} (h : s.pending ≠ []) :
    ∃ before p after, s.pending = before ++ p :: after ∧
      s.choose = some (p, s.serve p (before ++ after)) := by
  obtain ⟨before, p, after, hl, ht⟩ := takeAt_split s.pending (Config.pick s.turn) h
  exact ⟨before, p, after, hl, by simp [State.choose, ht]⟩

theorem respond_nil {s : State} (h : s.pending = []) (r : Response) : s.respond r = s := by
  simp [State.respond, h]

theorem respond_cons {s : State} {p : Submission} {others : List Submission} (h : s.pending = p :: others)
    (r : Response) : s.respond r = s.deliver p others r := by
  simp [State.respond, h]

theorem served_deliver (s : State) (p : Submission) (others : List Submission) (r : Response) :
    Served s (s.deliver p others r) p others r := by
  simp [Served, answerOf]

/-! ### `exec` and `step` -/

/-- Every operation delivers the response the rules give it, and does nothing else. -/
theorem exec_eq (i : Instr) (s : State) :
    exec i s = .next (s.respond (instrResponse s.cmdTable s.subTable i)) := by
  cases i <;> rfl

/-- What performing an operation for a request in service comes to. -/
theorem performs_iff {i : Instr} {s : State} {p : Submission} {others : List Submission} (h : s.pending = p :: others)
    (r : Response) : Performs i s p others r ↔ instrResponse s.cmdTable s.subTable i = r := by
  rw [Performs, exec_eq, respond_cons h]
  constructor
  · rintro ⟨t, ht, hs⟩
    cases ht
    simpa [Served, answerOf] using hs
  · rintro rfl
    exact ⟨_, rfl, served_deliver _ _ _ _⟩

theorem step_idle {s : State} (h : s.pending = []) : step s = .next s := by simp [step, choose_none h, State.idle]

/-- What a step does once a request is chosen. -/
theorem step_of_choose {s : State} {p : Submission} {others : List Submission}
    (h : s.choose = some (p, s.serve p others)) :
    step s = .next ((s.serve p others).deliver p others
      (requestResponse s.cmdTable s.subTable p.request)) := by
  cases hd : decode p.request with
  | ok i =>
    simp [step, h, hd, exec_eq, requestResponse, respond_cons (serve_pending s p others)]
  | error e =>
    simp [step, h, hd, State.reject, requestResponse, respond_cons (serve_pending s p others)]

/-- Everything a step can do: nothing where nothing is outstanding, else answer one outstanding request. -/
theorem step_cases (s : State) :
    (s.pending = [] ∧ step s = .next s) ∨
    ∃ before p after, s.pending = before ++ p :: after ∧
      step s = .next ((s.serve p (before ++ after)).deliver p (before ++ after)
        (requestResponse s.cmdTable s.subTable p.request)) := by
  by_cases h : s.pending = []
  · exact .inl ⟨h, step_idle h⟩
  · obtain ⟨before, p, after, hp, hc⟩ := choose_split h
    exact .inr ⟨before, p, after, hp, step_of_choose hc⟩

end Sys2Proof.Laws
end

