-- ==== Sys2Proof/Laws/Codec.lean ====
section
/-! SUPPORT. What each function of the codec computes, in the terms of Safety: the escaper, the checksum, the frame and
the positions of a DECODE input. -/

namespace Sys2Proof.Laws

open Sys2Proof.Machine Sys2Proof.Safety

/-! ### The escaper -/

theorem isProtected_iff (b : U8) : isProtected b = true ↔ b ∈ protectedSet := by
  simp [isProtected, protectedSet, or_assoc]

theorem escapeByte_eq (b : U8) : escapeByte b = wireByte b := by
  unfold escapeByte wireByte isProtected
  by_cases h1 : b = 0xFD#8
  · subst h1; decide
  by_cases h2 : b = 0xFE#8
  · subst h2; decide
  by_cases h3 : b = 0xFF#8
  · subst h3; decide
  simp [h1, h2, h3]

theorem escapeBytes_eq (data : List U8) : escapeBytes data = data.flatMap wireByte := by
  simp only [escapeBytes, funext escapeByte_eq]

/-- An escaped byte is itself, or 0xFD and its complement. -/
theorem wireByte_cases (b : U8) :
    (b ∉ protectedSet ∧ wireByte b = [b]) ∨
    (b ∈ protectedSet ∧ wireByte b = [0xFD#8, ~~~b] ∧ ~~~b ∈ [0x00#8, 0x01#8, 0x02#8]) := by
  unfold wireByte protectedSet
  by_cases h1 : b = 0xFD#8
  · subst h1; decide
  by_cases h2 : b = 0xFE#8
  · subst h2; decide
  by_cases h3 : b = 0xFF#8
  · subst h3; decide
  simp [h1, h2, h3]

theorem unescapeScan_plain {b : U8} (h : b ≠ 0xFD#8) (rest : List U8) :
    unescapeScan (b :: rest) = (b, false) :: unescapeScan rest := by
  cases rest <;> simp [unescapeScan, h]

theorem unescapeScan_pair (c : U8) (rest : List U8) :
    unescapeScan (0xFD#8 :: c :: rest) = (~~~c, true) :: unescapeScan rest := by
  simp [unescapeScan]

/-- UNESCAPE reads an escaped payload back, whatever stands after it. -/
theorem unescapeScan_escaped (data rest : List U8) :
    unescapeScan (data.flatMap wireByte ++ rest) =
      data.map (fun b => (b, decide (b ∈ protectedSet))) ++ unescapeScan rest := by
  induction data with
  | nil => rfl
  | cons b data ih =>
    rcases wireByte_cases b with ⟨hb, hw⟩ | ⟨hb, hw, -⟩
    · have : b ≠ 0xFD#8 := fun h => hb (by simp [h, protectedSet])
      simp [hw, unescapeScan_plain this, ih, hb]
    · simp [hw, unescapeScan_pair, ih, hb]

theorem unescapeScan_ne_nil {data : List U8} (h : data ≠ []) : unescapeScan data ≠ [] := by
  fun_cases unescapeScan data <;> simp_all

/-! ### The checksum -/

theorem accumulate_eq (acc : Nat) (data : List U8) : accumulate acc data = acc + byteSum data := by
  induction data generalizing acc with
  | nil => simp [accumulate, byteSum]
  | cons b data ih =>
    have : accumulate acc (b :: data) = accumulate (acc + b.toNat) data := rfl
    simp [this, ih, byteSum]
    omega

theorem checksumOf_eq (hdr len : U8) (data : List U8) : checksumOf hdr len data = checksumSum hdr len data := by
  simp [checksumOf, checksumSum, accumulate_eq]

theorem checksumSum_toNat (hdr len : U8) (data : List U8) :
    (checksumSum hdr len data).toNat = (hdr.toNat + len.toNat + byteSum data) % 128 := by
  simp [checksumSum]
  omega

@[simp] theorem byteSum_append (a b : List U8) : byteSum (a ++ b) = byteSum a + byteSum b := by simp [byteSum]

/-! ### The frame and the decoder -/

theorem buildFrame_eq (e : List U8) : buildFrame e = wireFrame e := by
  simp [buildFrame, wireFrame, escapeBytes_eq, checksumOf_eq, lengthByte]

/-- The breakdown of an input of five bytes or more, by position. -/
theorem breakDown_fields (cmds subs : RegistryTable) (h l c t : U8) {esc : List U8} (hne : esc ≠ []) :
    ∃ dest params, unescapeBytes esc = dest :: params ∧
      breakDown cmds subs ([h, l] ++ esc ++ [c, t]) =
        .breakdown (breakdownOf cmds subs h l esc dest params c t) := by
  obtain ⟨dest, params, hu⟩ : ∃ dest params, unescapeBytes esc = dest :: params := by
    have := unescapeScan_ne_nil hne
    cases hs : unescapeBytes esc with
    | nil => simp [unescapeBytes] at hs; contradiction
    | cons dest params => exact ⟨dest, params, rfl⟩
  refine ⟨dest, params, hu, ?_⟩
  have hpos : 1 ≤ esc.length := List.length_pos_iff.mpr hne
  have hlen : ([h, l] ++ esc ++ [c, t]).length = esc.length + 4 := by simp
  have h2 : ([h, l] ++ esc ++ [c, t])[esc.length + 2]? = some c := by
    simp
  have h3 : ([h, l] ++ esc ++ [c, t])[esc.length + 3]? = some t := by
    simp [show esc.length + 1 - esc.length = 1 by omega]
  have hs : slice ([h, l] ++ esc ++ [c, t]) 2 (esc.length + 2) = esc := by simp [slice]
  simp only [breakDown, hlen, show ¬ esc.length + 4 < 5 by omega, if_false,
    show esc.length + 4 - 2 = esc.length + 2 by omega, show esc.length + 4 - 1 = esc.length + 3 by omega,
    h2, h3, hs, hu]
  rfl

/-- Every input of five bytes or more is such an input. -/
theorem exists_fields {data : List U8} (h : 5 ≤ data.length) :
    ∃ h l esc c t, esc ≠ [] ∧ data = [h, l] ++ esc ++ [c, t] := by
  obtain ⟨a, l, body, rfl⟩ : ∃ a l body, data = a :: l :: body := by
    match data, h with
    | a :: l :: body, _ => exact ⟨a, l, body, rfl⟩
  have h1 : body ≠ [] := by rintro rfl; simp at h
  obtain ⟨body', t, rfl⟩ : ∃ b' t, body = b' ++ [t] := ⟨_, _, (List.dropLast_append_getLast h1).symm⟩
  have h2 : body' ≠ [] := by rintro rfl; simp at h
  obtain ⟨esc, c, rfl⟩ : ∃ b' t, body' = b' ++ [t] := ⟨_, _, (List.dropLast_append_getLast h2).symm⟩
  exact ⟨a, l, esc, c, t, by rintro rfl; simp at h, by simp⟩

/-! ### The registry -/

/-- The row R106 and R107 put before all others of a code decides its entry. -/
theorem lookup_append (a b : RegistryTable) (code : U8) :
    lookup (a ++ b) code = (lookup a code).or (lookup b code) := by
  simp [lookup, List.find?_append, Option.map_or]

end Sys2Proof.Laws
end

