-- ==== Sys2Proof/Laws/Config.lean ====
section
/-! SUPPORT. The parameters of R8 as Config writes them lose no implementation: `skip k` reaches every number but `k`,
and only those. -/

namespace Sys2Proof.Laws

theorem skip_ne (k n : Nat) : Config.skip k n ≠ k := by unfold Config.skip; split <;> omega

theorem skip_surjective {k m : Nat} (h : m ≠ k) : ∃ n, Config.skip k n = m := by
  by_cases hm : m < k
  · exact ⟨m, by simp [Config.skip, hm]⟩
  · exact ⟨m - 1, by unfold Config.skip; split <;> omega⟩

theorem skip_injective (k : Nat) {m n : Nat} (h : Config.skip k m = Config.skip k n) : m = n := by
  unfold Config.skip at h
  split at h <;> split at h <;> omega

theorem skip_le (k n : Nat) : Config.skip k n ≤ n + 1 := by unfold Config.skip; split <;> omega

theorem subSet_toNat : Config.subSet.toNat = Config.skip 2 Config.subSetIndex := by
  have := Config.subSetIndex.isLt
  have := skip_le 2 Config.subSetIndex
  simp [Config.subSet]
  omega

theorem subResponse_toNat : Config.subResponse.toNat =
    Config.skip (max 2 Config.subSet.toNat) (Config.skip (min 2 Config.subSet.toNat) Config.subResponseIndex) := by
  have := Config.subResponseIndex.isLt
  have := skip_le (min 2 Config.subSet.toNat) Config.subResponseIndex
  have := skip_le (max 2 Config.subSet.toNat) (Config.skip (min 2 Config.subSet.toNat) Config.subResponseIndex)
  simp [Config.subResponse]
  omega

end Sys2Proof.Laws
end

