-- ==== Sys2Proof/Laws/PerInstr.lean ====
section
/-! SUPPORT. A statement about every operation as syntax, one lemma per constructor: the request of an operation
decodes to it (R62, R69). -/

namespace Sys2Proof.Laws.RoundTrip

/-- Decoding the request of an operation gives the operation back. -/
def Statement (i : Instr) : Prop := decode (encode i) = .ok i

theorem escape (data : List U8) : Statement (.escape data) := rfl
theorem unescape (data : List U8) : Statement (.unescape data) := rfl
theorem checksum (hdr len : U8) (data : List U8) : Statement (.checksum hdr len data) := rfl
theorem encode (data : List U8) : Statement (.encode data) := rfl
theorem decode (data : List U8) : Statement (.decode data) := rfl

end Sys2Proof.Laws.RoundTrip
end

