-- ==== Sys2Proof/Laws/Requester.lean ====
section
/-! SUPPORT. What a requester's waiting and one line of its program come to (R168, R178). -/

namespace Sys2Proof.Laws

open Sys2Proof.Machine Sys2Proof.Safety

/-- The answer the rules give a request outstanding at `s`. -/
def ruleAnswer (s : State) (p : Submission) : Answer :=
  answerOf p (requestResponse s.cmdTable s.subTable p.request)

/-- Waiting as many steps as requests are outstanding ends with the requester's requests answered: some of the
outstanding requests were served, each answered by the rules, and the others stay outstanding. -/
theorem awaitResponses_serves (q : Fin Config.requesters) (steps : Nat) (s : State) (h : s.pending.length ≤ steps) :
    ∃ t served, awaitResponses q steps s = some t ∧ t.runEnded q = true ∧ (served ++ t.pending).Perm s.pending ∧
      t.answered = s.answered ++ served.map (ruleAnswer s) ∧ t.cmdTable = s.cmdTable ∧ t.subTable = s.subTable := by
  induction steps generalizing s with
  | zero =>
    have he := runEnded_of_pending_nil s q (List.length_eq_zero_iff.mp (by omega))
    exact ⟨s, [], by simp [awaitResponses, he], he, by simp, by simp, rfl, rfl⟩
  | succ steps ih =>
    by_cases he : s.runEnded q = true
    · exact ⟨s, [], by simp [awaitResponses, he], he, by simp, by simp, rfl, rfl⟩
    rcases step_cases s with ⟨hp, -⟩ | ⟨before, p, after, hp, hs⟩
    · exact absurd (runEnded_of_pending_nil s q hp) he
    obtain ⟨t, served, ht, hr, hperm, ha, hc, hb⟩ :=
      ih ((s.serve p (before ++ after)).deliver p (before ++ after)
        (requestResponse s.cmdTable s.subTable p.request)) (by simp [hp] at h ⊢; omega)
    refine ⟨t, p :: served, by simp [awaitResponses, he, hs, ht], hr, ?_, ?_, hc, hb⟩
    · rw [hp]
      exact (List.Perm.cons p hperm).trans List.perm_middle.symm
    · simp [ha, ruleAnswer]

/-- What a requester received, where the answers added are those of the rules. -/
theorem received_of_served {s t : State} {served : List Submission}
    (h : t.answered = s.answered ++ served.map (ruleAnswer s)) (q : Fin Config.requesters) :
    t.received q = s.received q ++ (served.filter fun p => decide (p.requester = q)).map (ruleAnswer s) := by
  simp only [State.received, h, List.filter_append, List.filter_map]
  rfl

/-- One line whose operands have values: its request is answered by the rules and that answer is the one read,
whatever else is outstanding. -/
theorem runLine_reads_own_answer (q : Fin Config.requesters) (l : Line) (run : ProgramRun) (r : Request)
    (hl : lineEncoding run.named l = some r) :
    ∃ t, runLine q l run = some
        { named := nameResponse l (requestResponse run.block.cmdTable run.block.subTable r) run.named
          received := run.received ++ [⟨q, r, requestResponse run.block.cmdTable run.block.subTable r⟩]
          block := t } ∧
      t.runEnded q = true ∧ t.cmdTable = run.block.cmdTable ∧ t.subTable = run.block.subTable ∧
      (run.block.runEnded q = true → t.received q =
        run.block.received q ++ [⟨q, r, requestResponse run.block.cmdTable run.block.subTable r⟩]) := by
  obtain ⟨t, served, ht, he, hperm, ha, hc, hb⟩ :=
    awaitResponses_serves q (run.block.pending.length + 1) (run.block.submit q r) (by simp)
  have hrec : t.received q = run.block.received q ++ _ := received_of_served ha q
  have hmem : (⟨q, r⟩ : Submission) ∈ served := by
    have : (⟨q, r⟩ : Submission) ∈ served ++ t.pending := hperm.mem_iff.mpr (by simp)
    rcases List.mem_append.mp this with h | h
    · exact h
    · exact absurd rfl ((runEnded_iff t q).mp he _ h)
  have hfind : responseSince q r run.block t =
      some ⟨q, r, requestResponse run.block.cmdTable run.block.subTable r⟩ := by
    rw [responseSince, hrec, List.drop_left]
    cases hf : List.find? _ _ with
    | none =>
      have := List.find?_eq_none.mp hf (ruleAnswer (run.block.submit q r) ⟨q, r⟩)
        (List.mem_map_of_mem (List.mem_filter.mpr ⟨hmem, by simp⟩))
      simp [ruleAnswer, answerOf] at this
    | some a =>
      have hreq := List.find?_some hf
      obtain ⟨p, hp, rfl⟩ := List.mem_map.mp (List.mem_of_find?_eq_some hf)
      simp only [List.mem_filter, decide_eq_true_eq] at hp
      have : p.request = r := of_decide_eq_true hreq
      simp [ruleAnswer, answerOf, hp.2, this]
  refine ⟨t, by simp [runLine, hl, ht, hfind], he, hc, hb, fun h0 => ?_⟩
  have hone : (served.filter fun p => decide (p.requester = q)) = [⟨q, r⟩] := by
    have h1 := hperm.filter fun p => decide (p.requester = q)
    have h2 : (run.block.pending.filter fun p => decide (p.requester = q)) = [] := by
      simpa [List.filter_eq_nil_iff] using (runEnded_iff run.block q).mp h0
    have h3 : (t.pending.filter fun p => decide (p.requester = q)) = [] := by
      simpa [List.filter_eq_nil_iff] using (runEnded_iff t q).mp he
    simpa [h2, h3] using h1
  simp [hrec, hone, ruleAnswer, answerOf]

end Sys2Proof.Laws
end

