-- ==== Sys2Proof/Tests/Slice0.lean ====
section
/-! SUPPORT. Tests: well-formedness, words of the opcode table, vectors of spec/95_test_vectors.md, and a witness for
the hypotheses of each statement that has some. Expected values come from the spec's tables. -/

namespace Sys2Proof.Tests

open Sys2Proof.Machine Sys2Proof.Safety Sys2Proof.Laws

/-- A block after reset with one request outstanding. -/
def one (r : Request) : State := { State.reset with pending := [⟨Config.firstRequester, r⟩] }

/-- The response one step gives that request. -/
def responseTo (r : Request) : Option Response :=
  match step (one r) with
  | .next t => t.answered.getLast?.map Answer.response
  | .fault _ => none
  | .refused _ => none

/-- The breakdown among it. -/
def breakdownTo (data : List U8) : Option Breakdown :=
  match responseTo ⟨0x05#8, 0#8, 0#8, data⟩ with
  | some (.ok (.decoded (.breakdown b))) => some b
  | _ => none

/-! ### Well-formedness: each check refuses an ill-formed term -/

theorem test_wellFormed_refuses_long_operand :
    (Instr.escape (List.replicate (Config.maxSeq + 1) 0#8)).wellFormed = false := by
  simp [Instr.wellFormed, Instr.withinMaxSeq, Instr.data]

theorem test_wellFormed_refuses_long_envelope : (Instr.encode (List.replicate 256 0#8)).wellFormed = false := by
  simp only [Instr.wellFormed, Instr.withinEnvelope, List.length_replicate, show ¬ 256 ≤ 255 by omega, decide_false,
    Bool.and_false]

theorem test_wellFormed_accepts_longest_envelope : (Instr.encode (List.replicate 255 0#8)).wellFormed = true := by
  have := maxSeq_ge
  simp only [Instr.wellFormed, Instr.withinEnvelope, Instr.withinMaxSeq, Instr.data, List.length_replicate]
  simp
  omega

/-! ### Decoding: the five words of R62, bit by bit, and reserved neighbours (R63) -/

theorem test_decode_escape : decodeTableWord 8 0b00000001 = some (.escape []) := by decide
theorem test_decode_unescape : decodeTableWord 8 0b00000010 = some (.unescape []) := by decide
theorem test_decode_checksum : decodeTableWord 40 0x41_7F_03_FE_03 = some (.checksum 0xFE#8 0x03#8 [0x7F#8, 0x41#8]) := by
  decide
theorem test_decode_encode : decodeTableWord 8 0b00000100 = some (.encode []) := by decide
theorem test_decode_decode : decodeTableWord 8 0b00000101 = some (.decode []) := by decide
theorem test_decode_reserved :
    decodeTableWord 8 0b00000000 = none ∧ decodeTableWord 8 0b00000110 = none ∧ decodeTableWord 8 0b11111111 = none := by
  decide
theorem test_withFetchWord_runs : step (State.reset.withFetchWord 8 0b00000100) =
    exec (.encode []) { State.reset.withFetchWord 8 0b00000100 with turn := 1 } := rfl

/-! ### Vectors: 2.1 ESCAPE, 2.2 UNESCAPE, 2.3 CHECKSUM -/

theorem test_escape_protected : responseTo ⟨0x01#8, 0#8, 0#8, [0xFE#8, 0xFF#8, 0xFD#8, 0x00#8]⟩ =
    some (.ok (.escaped [0xFD#8, 0x01#8, 0xFD#8, 0x00#8, 0xFD#8, 0x02#8, 0x00#8])) := by decide

theorem test_escape_unprotected_edges : responseTo ⟨0x01#8, 0xAA#8, 0xBB#8, [0x7F#8, 0x80#8, 0xFB#8, 0xFC#8]⟩ =
    some (.ok (.escaped [0x7F#8, 0x80#8, 0xFB#8, 0xFC#8])) := by decide

theorem test_unescape_doubled_escape : responseTo ⟨0x02#8, 0#8, 0#8, [0xFD#8, 0xFD#8, 0xFD#8]⟩ =
    some (.ok (.unescaped [0x02#8, 0xFD#8] [true, false])) := by decide

theorem test_unescape_any_byte : responseTo ⟨0x02#8, 0#8, 0#8, [0x01#8, 0xFD#8, 0x41#8, 0x7E#8]⟩ =
    some (.ok (.unescaped [0x01#8, 0xBE#8, 0x7E#8] [false, true, false])) := by decide

theorem test_checksum_source_example : responseTo ⟨0x03#8, 0xFE#8, 0x03#8, [0x00#8, 0x21#8, 0x02#8]⟩ =
    some (.ok (.checksum 0x24#8)) := by decide

theorem test_checksum_past_byte : responseTo ⟨0x03#8, 0xFF#8, 0xFF#8, []⟩ = some (.ok (.checksum 0x7E#8)) := by decide

/-! ### 2.5 ENCODE, 2.6 DECODE, 2.7 refusals -/

theorem test_encode_protected :
    responseTo ⟨0x04#8, 0#8, 0#8, [0x00#8, 0x22#8, 0xFE#8, 0xFF#8, 0xFD#8]⟩ =
      some (.ok (.frame [0xFE#8, 0x05#8, 0x00#8, 0x22#8, 0xFD#8, 0x01#8, 0xFD#8, 0x00#8, 0xFD#8, 0x02#8, 0x1F#8,
        0xFF#8])) := by decide

theorem test_encode_protected_destination : responseTo ⟨0x04#8, 0#8, 0#8, [0xFE#8, 0x37#8, 0x01#8]⟩ =
    some (.ok (.frame [0xFE#8, 0x03#8, 0xFD#8, 0x01#8, 0x37#8, 0x01#8, 0x37#8, 0xFF#8])) := by decide

/-- Row D15 of 2.6. -/
theorem test_decode_length_mismatch :
    breakdownTo [0xFE#8, 0x09#8, 0xFD#8, 0x01#8, 0x02#8, 0x03#8, 0xAA#8] = some
      { header := 0xFE#8, headerValid := true, length := 0x09#8, envEscaped := [0xFD#8, 0x01#8, 0x02#8],
        envUnescaped := [0xFE#8, 0x02#8], envMarks := [true, false], dest := 0xFE#8, destBroadcast := false,
        cmd := some 0x02#8, cmdName := some ⟨.named, "LOGIN"⟩, sub := none, subName := none, checksum := 0x03#8,
        checksumExpected := 0x07#8, checksumValid := false, tail := 0xAA#8, tailValid := false } := by decide

/-- Row D10 of 2.6: a header off by 0x80. -/
theorem test_decode_header_off_by_0x80 :
    (breakdownTo [0x7E#8, 0x03#8, 0x00#8, 0x21#8, 0x02#8, 0x24#8, 0xFF#8]).map (fun b =>
      (b.headerValid, b.checksumValid, b.destBroadcast, b.cmdName, b.subName)) =
    some (false, true, true, some ⟨.named, "OUTLET_NAME"⟩, some ⟨.named, "GET"⟩) := by decide

theorem test_reserved_op : responseTo ⟨0x06#8, 0#8, 0#8, [0x00#8]⟩ = some (.refused .badOp) := by decide

theorem test_family_ends : (cmdName commandTable 0x50#8).cls = .family ∧ (cmdName commandTable 0x61#8).cls = .family ∧
    (cmdName commandTable 0x70#8).cls = .family ∧ (cmdName commandTable 0x77#8).cls = .family := by decide

/-! ### 2.8 hex text, and a line of R69 -/

theorem test_hexParse_strips : hexParse ['0', 'x', 'F', 'E'] = [0x0F#8] ∧
    hexParse ['f', 'e', ':', '0', '3', ':', '0', '0'] = [0xFE#8, 0x03#8, 0x00#8] ∧
    hexParse ['F', 'E', ' ', '0', 'G', ' ', '3'] = [0xFE#8, 0x03#8] := by decide

theorem test_lineText : lineText ⟨some "R3", .checksum (.byte 0xFE#8) (.byte 0x05#8) (.bytes [0x00#8, 0x22#8])⟩ =
    "R3 <- CHECKSUM FE, 05, [00 22]".toList := by decide

/-! ### Requester programs (R178): lines of programs P3 and P4, and a run beside other requesters -/

theorem test_runLine_pairs_response_with_request :
    (runLine Config.firstRequester ⟨some "R5", .encode (.bytes [0xFF#8])⟩ (.start State.reset)).map ProgramRun.received =
      some [⟨Config.firstRequester, ⟨0x04#8, 0#8, 0#8, [0xFF#8]⟩,
        .ok (.frame [0xFE#8, 0x01#8, 0xFD#8, 0x00#8, 0x7E#8, 0xFF#8])⟩] := by decide

/-- Program P4's line with op 0x00. -/
theorem test_runLine_sends_record :
    (runLine Config.firstRequester ⟨some "R2", .record ⟨0x00#8, 0#8, 0#8, [0x00#8, 0x21#8, 0x02#8]⟩⟩
      (.start State.reset)).map ProgramRun.named = some [("R2", .refused .badOp)] ∧
    lineText ⟨some "R2", .record ⟨0x00#8, 0#8, 0#8, [0x00#8, 0x21#8, 0x02#8]⟩⟩ =
      "R2 <- request with op 0x00".toList := by decide

theorem test_runEnded_ignores_other_requesters (q : Fin Config.requesters) (r : Request) (h : q ≠ Config.firstRequester) :
    ({ State.reset with pending := [⟨q, r⟩] } : State).runEnded Config.firstRequester = true ∧
    ({ State.reset with pending := [⟨q, r⟩] } : State).runEnded q = false := by
  simp [State.runEnded, h]

/-! ### Witnesses: for each statement with hypotheses, a state and operands that meet them all -/

/-- A state with a request in service and another outstanding. -/
def two (a b : Request) : State :=
  { State.reset with pending := [⟨Config.firstRequester, a⟩, ⟨Config.firstRequester, b⟩] }

theorem witness_inService : ∃ p others, (two ⟨1#8, 0#8, 0#8, [0xFD#8]⟩ ⟨0#8, 0#8, 0#8, []⟩).pending = p :: others :=
  ⟨_, _, rfl⟩

/-- For the statements whose only hypothesis is a request in service. -/
theorem witness_EscapeAnswersWireForm : (one ⟨1#8, 0#8, 0#8, []⟩).pending = ⟨Config.firstRequester, ⟨1#8, 0#8, 0#8, []⟩⟩ :: [] :=
  rfl
theorem witness_UnescapeIsNotInjective : (one ⟨2#8, 0#8, 0#8, [0xFD#8, 0x41#8]⟩).pending =
    ⟨Config.firstRequester, ⟨2#8, 0#8, 0#8, [0xFD#8, 0x41#8]⟩⟩ :: [] := rfl
theorem witness_ChecksumAnswersSumModulo128 : (one ⟨3#8, 0xFF#8, 0xFF#8, [0xFF#8]⟩).pending =
    ⟨Config.firstRequester, ⟨3#8, 0xFF#8, 0xFF#8, [0xFF#8]⟩⟩ :: [] := rfl
theorem witness_EncodeAnswersFrame : (one ⟨4#8, 0#8, 0#8, [0xFE#8]⟩).pending =
    ⟨Config.firstRequester, ⟨4#8, 0#8, 0#8, [0xFE#8]⟩⟩ :: [] := rfl
theorem witness_RegistryContentsReachNamesOnly : (one ⟨5#8, 0#8, 0#8, []⟩).pending =
    ⟨Config.firstRequester, ⟨5#8, 0#8, 0#8, []⟩⟩ :: [] := rfl

/-- Both branches of the operand limit are met, at its two sides. -/
theorem witness_operandLimit : (List.replicate Config.maxSeq 0#8).length ≤ Config.maxSeq ∧
    Config.maxSeq < (List.replicate (Config.maxSeq + 1) 0#8).length := by simp

/-- The limit of the envelope lies below that of the operand, so ENV_TOO_LONG is reached at 256 bytes. -/
theorem witness_envelopeLimit : (List.replicate 255 0#8).length ≤ 255 ∧ 255 < (List.replicate 256 0#8).length ∧
    (List.replicate 256 0#8).length ≤ Config.maxSeq := by
  have := maxSeq_ge
  simp only [List.length_replicate]
  omega

theorem short_le_maxSeq {n : Nat} (h : n ≤ 514) : n ≤ Config.maxSeq := Nat.le_trans h maxSeq_ge

theorem longest_envelope (b : U8) : (List.replicate 255 b).length ≤ 255 := Nat.le_of_eq List.length_replicate

theorem witness_EscapeOutputHidesProtectedValues : (one ⟨1#8, 0#8, 0#8, []⟩).pending ≠ [] ∧
    [0xFE#8, 0xFF#8, 0xFD#8].length ≤ Config.maxSeq := ⟨by simp [one], short_le_maxSeq (by simp)⟩
theorem witness_EscapeActsByteByByte : (one ⟨1#8, 0#8, 0#8, []⟩).pending ≠ [] ∧
    ([0xFE#8] ++ [0x00#8]).length ≤ Config.maxSeq := ⟨by simp [one], short_le_maxSeq (by simp)⟩
theorem witness_UnescapeAnswersLeftToRightReading : (one ⟨2#8, 0#8, 0#8, []⟩).pending ≠ [] ∧
    readable [.plain 0x01#8, .pair 0xFD#8, .plain 0xFD#8] :=
  ⟨by simp [one], by simp [readable]⟩
theorem witness_UnescapeInvertsEscape : (one ⟨1#8, 0#8, 0#8, []⟩).pending ≠ [] ∧
    [0xFE#8].length ≤ Config.maxSeq ∧ [0xFD#8, 0x01#8].length ≤ Config.maxSeq :=
  ⟨by simp [one], short_le_maxSeq (by simp), short_le_maxSeq (by simp)⟩
theorem witness_TrailingEscapeByteIsKept : (one ⟨2#8, 0#8, 0#8, []⟩).pending ≠ [] ∧
    ([0xFE#8].flatMap wireByte).length < Config.maxSeq := by
  have := maxSeq_ge
  exact ⟨by simp [one], by simp [wireByte]; omega⟩
theorem witness_ProtectedValuesAreExactlyThree : (one ⟨1#8, 0#8, 0#8, [0x02#8]⟩).pending ≠ [] := by simp [one]
theorem witness_FrameIsLaidOutByOffset : (one ⟨4#8, 0#8, 0#8, []⟩).pending ≠ [] ∧
    (List.replicate 255 0xFF#8).length ≤ 255 := ⟨by simp [one], longest_envelope _⟩
theorem witness_DecodeReadsFieldsByPosition : (one ⟨5#8, 0#8, 0#8, []⟩).pending ≠ [] ∧
    5 ≤ [0xFE#8, 0x01#8, 0xFD#8, 0x7C#8, 0xFF#8].length ∧
    [0xFE#8, 0x01#8, 0xFD#8, 0x7C#8, 0xFF#8].length ≤ Config.maxSeq :=
  ⟨by simp [one], by simp, short_le_maxSeq (by simp)⟩
theorem witness_ChecksumIsLowSevenBitsOfExactSum : (one ⟨3#8, 0#8, 0#8, []⟩).pending ≠ [] ∧ [0x80#8].length ≤ Config.maxSeq :=
  ⟨by simp [one], short_le_maxSeq (by simp)⟩
theorem witness_AccumulatorWidthIsUnobservable : (one ⟨3#8, 0#8, 0#8, []⟩).pending ≠ [] ∧
    (List.replicate 255 0xFF#8).length ≤ 255 ∧ (List.replicate 255 0xFF#8).length ≤ Config.maxSeq ∧ 7 ≤ 7 :=
  ⟨by simp [one], longest_envelope _, short_le_maxSeq (Nat.le_trans (longest_envelope _) (by simp)), Nat.le_refl 7⟩
theorem witness_ChecksumDependsOnSumModulo128 : (one ⟨3#8, 0#8, 0#8, []⟩).pending ≠ [] ∧
    [0x01#8, 0x02#8].length ≤ Config.maxSeq ∧ [0x83#8].length ≤ Config.maxSeq ∧
    ((0xFE#8).toNat + (0x02#8).toNat + byteSum [0x83#8]) % 128 =
      ((0xFE#8).toNat + (0x02#8).toNat + byteSum [0x01#8, 0x02#8]) % 128 ∧
    [0x02#8, 0x01#8].Perm [0x01#8, 0x02#8] ∧ ([0x01#8, 0x02#8] ++ [0x80#8]).length ≤ Config.maxSeq :=
  ⟨by simp [one], short_le_maxSeq (by simp), short_le_maxSeq (by simp), by decide, by decide,
    short_le_maxSeq (by simp)⟩
theorem witness_FrameKeepsItsInvariants : (one ⟨4#8, 0#8, 0#8, []⟩).pending ≠ [] ∧
    (List.replicate 255 0xFF#8).length ≤ 255 := ⟨by simp [one], longest_envelope _⟩
theorem witness_ProtectedValuesStandOnlyAtFrameEdges : (one ⟨4#8, 0#8, 0#8, []⟩).pending ≠ [] ∧
    [0xFD#8].length ≤ 255 ∧ (wireFrame [0xFD#8]).length = 6 ∧ (wireFrame [0xFD#8])[2]? = some 0xFD#8 ∧
    (wireFrame [0xFD#8])[0]? = some 0xFE#8 ∧ (wireFrame [0xFD#8])[5]? = some 0xFF#8 :=
  ⟨by simp [one], by simp, by decide, by decide, by decide, by decide⟩

/-- A reading of one byte: the least breakdown, five bytes; and four bytes, the longest `Empty` input. -/
theorem witness_DecodeAnswersBreakdown : (one ⟨5#8, 0#8, 0#8, []⟩).pending ≠ [] ∧
    readable [.plain 0xFD#8] ∧ [Token.plain 0xFD#8] ≠ [] ∧ (wireOf [.plain 0xFD#8]).length + 4 ≤ Config.maxSeq ∧
    [0xFE#8, 0x00#8, 0x7E#8, 0xFF#8].length < 5 ∧ 5 ≤ [0xFE#8, 0x01#8, 0xFD#8, 0x7C#8, 0xFF#8].length :=
  ⟨by simp [one], by simp [readable], by simp, short_le_maxSeq (by decide), by simp, by simp⟩
theorem witness_DecodeOfTooFewBytesIsEmpty : (one ⟨5#8, 0#8, 0#8, []⟩).pending ≠ [] ∧
    [0xFE#8, 0x00#8, 0x7E#8, 0xFF#8].length ≤ Config.maxSeq ∧ [0xFE#8, 0x00#8, 0x7E#8, 0xFF#8].length < 5 ∧
    [0xFE#8, 0x01#8, 0xFD#8, 0x7C#8, 0xFF#8].length ≤ Config.maxSeq ∧
    5 ≤ [0xFE#8, 0x01#8, 0xFD#8, 0x7C#8, 0xFF#8].length :=
  ⟨by simp [one], short_le_maxSeq (by simp), by simp, short_le_maxSeq (by simp), by simp⟩
theorem witness_DecodeInvertsEncode : (one ⟨4#8, 0#8, 0#8, []⟩).pending ≠ [] ∧
    1 ≤ [0xFE#8].length ∧ [0xFE#8].length ≤ 255 ∧ 1 ≤ (List.replicate 255 0xFF#8).length ∧
    (List.replicate 255 0xFF#8).length ≤ 255 :=
  ⟨by simp [one], by simp, by simp, by simp only [List.length_replicate]; omega, longest_envelope _⟩
theorem witness_ChangedHeaderReachesHeaderAndChecksumFieldsOnly : (one ⟨5#8, 0#8, 0#8, []⟩).pending ≠ [] ∧
    1 ≤ [0x00#8].length ∧ [0x00#8].length ≤ 255 ∧ 0x7E#8 ≠ 0xFE#8 := ⟨by simp [one], by simp, by simp, by decide⟩
theorem witness_LengthByteIsInformational : (one ⟨5#8, 0#8, 0#8, []⟩).pending ≠ [] ∧
    3 ≤ [0x00#8, 0x7F#8, 0xFF#8].length ∧ [0x00#8, 0x7F#8, 0xFF#8].length + 2 ≤ Config.maxSeq :=
  ⟨by simp [one], by simp, short_le_maxSeq (by simp)⟩
theorem witness_EscapeSplitByEnvelopeEndIsKept : (one ⟨5#8, 0#8, 0#8, []⟩).pending ≠ [] ∧
    (([] : List U8).flatMap wireByte).length + 5 ≤ Config.maxSeq := ⟨by simp [one], short_le_maxSeq (by simp)⟩
theorem witness_FrameOkAcceptsExactlyStrictFrames : (one ⟨5#8, 0#8, 0#8, []⟩).pending ≠ [] ∧
    readable [.pair 0x01#8] ∧ [Token.pair 0x01#8] ≠ [] ∧ (wireOf [.pair 0x01#8]).length + 4 ≤ Config.maxSeq :=
  ⟨by simp [one], by simp [readable], by simp, short_le_maxSeq (by decide)⟩
theorem witness_EntryListFollowsFieldOrder : (one ⟨5#8, 0#8, 0#8, []⟩).pending ≠ [] ∧
    5 ≤ [0xFE#8, 0x01#8, 0xFD#8, 0x7C#8, 0xFF#8].length ∧
    [0xFE#8, 0x01#8, 0xFD#8, 0x7C#8, 0xFF#8].length ≤ Config.maxSeq :=
  ⟨by simp [one], by simp, short_le_maxSeq (by simp)⟩
theorem witness_FixedTextsStandWhereTheSourcePutsThem : (one ⟨5#8, 0#8, 0#8, []⟩).pending ≠ [] ∧
    TablesLoaded (one ⟨5#8, 0#8, 0#8, []⟩) ∧ 5 ≤ [0xFE#8, 0x01#8, 0xFD#8, 0x7C#8, 0xFF#8].length ∧
    [0xFE#8, 0x01#8, 0xFD#8, 0x7C#8, 0xFF#8].length ≤ Config.maxSeq :=
  ⟨by simp [one], ⟨rfl, rfl⟩, by simp, short_le_maxSeq (by simp)⟩

/-- Reserved codes at both ends of the two reserved ranges (R63). -/
theorem witness_ReservedOpIsRefused : (one ⟨0x00#8, 0#8, 0#8, []⟩).choose =
      some (⟨Config.firstRequester, ⟨0x00#8, 0#8, 0#8, []⟩⟩,
        (one ⟨0x00#8, 0#8, 0#8, []⟩).serve ⟨Config.firstRequester, ⟨0x00#8, 0#8, 0#8, []⟩⟩ []) ∧
    ((0x00#8).toNat = 0 ∨ 5 < (0x00#8).toNat) ∧ ((0x06#8).toNat = 0 ∨ 5 < (0x06#8).toNat) ∧
    ((0xFF#8).toNat = 0 ∨ 5 < (0xFF#8).toNat) := ⟨rfl, by decide, by decide, by decide⟩
theorem witness_RefusalReasonsHaveOnePriority :
    (two ⟨0x04#8, 0#8, 0#8, List.replicate 256 0#8⟩ ⟨0x06#8, 0#8, 0#8, []⟩).pending ≠ [] := List.cons_ne_nil _ _
theorem witness_OperationsWithinLimitsArePerformed : (one ⟨4#8, 0#8, 0#8, []⟩).pending ≠ [] ∧
    (Instr.encode (List.replicate 255 0#8)).wellFormed = true ∧
    (Instr.encode (List.replicate 256 0#8)).wellFormed = false :=
  ⟨by simp [one], test_wellFormed_accepts_longest_envelope, test_wellFormed_refuses_long_envelope⟩
theorem witness_EveryStepAnswersOneOutstandingRequest :
    (two ⟨1#8, 0#8, 0#8, []⟩ ⟨5#8, 0#8, 0#8, []⟩).pending ≠ [] := by simp [two]
theorem witness_NothingOutstandingNothingChanges : State.reset.pending = [] := rfl
theorem witness_StepPerformsDecodedRequest : (one ⟨1#8, 0#8, 0#8, []⟩).choose =
      some (⟨Config.firstRequester, ⟨1#8, 0#8, 0#8, []⟩⟩,
        (one ⟨1#8, 0#8, 0#8, []⟩).serve ⟨Config.firstRequester, ⟨1#8, 0#8, 0#8, []⟩⟩ []) ∧
    (one ⟨1#8, 0#8, 0#8, []⟩).pending = [⟨Config.firstRequester, ⟨1#8, 0#8, 0#8, []⟩⟩] ∧
    decode ⟨1#8, 0#8, 0#8, []⟩ = .ok (.escape []) := ⟨rfl, rfl, rfl⟩
theorem witness_FirstRequestIsHandledLikeEveryLaterOne : State.reset.pending = [] ∧ TablesLoaded State.reset :=
  ⟨rfl, rfl, rfl⟩
theorem witness_DecodeAndEncodeAgree : decode ⟨1#8, 0xAA#8, 0xBB#8, []⟩ = .ok (.escape []) ∧
    1 ≤ (0x05#8).toNat ∧ (0x05#8).toNat ≤ 5 ∧ encode (.decode []) = clearIgnored ⟨0x05#8, 0xAA#8, 0xBB#8, []⟩ := by
  decide
theorem witness_HexParseInvertsRender :
    ['f', 'e', ':', '0', '3'].filterMap hexValue = (hexRender [0xFE#8, 0x03#8]).filterMap hexValue := by decide
theorem witness_HexRenderHasTheStatedForm : [0xFE#8, 0x03#8][0]? = some 0xFE#8 ∧ 0 + 1 < [0xFE#8, 0x03#8].length ∧
    hexRender [0xFE#8, 0x03#8] = ['F', 'E', ' ', '0', '3'] := by decide
theorem witness_LineEncodingSetsNamedFieldsOnly :
    seqValue [("R1", .ok (.frame [0xFE#8]))] (.frameOf "R1") = some [0xFE#8] ∧
    byteValue [("R1", .ok (.checksum 0x24#8))] (.ckOf "R1") = some 0x24#8 ∧ byteValue [] (.byte 0x03#8) = some 0x03#8 := by
  decide
theorem witness_InvariantIsKept : Inv (two ⟨1#8, 0#8, 0#8, []⟩ ⟨6#8, 0#8, 0#8, []⟩) :=
  { tables := ⟨rfl, rfl⟩, answers := by simp [AnswersFollowRules, two] }

/-- A line whose operand is a response of the line before, on an idle block and beside an outstanding request. -/
theorem witness_ProgramReceivesItsOwnResponses :
    (programAnswers Config.firstRequester State.reset.cmdTable State.reset.subTable
      [⟨some "R1", .unescape (.bytes [0xFD#8, 0x01#8])⟩, ⟨none, .escape (.bytesOf "R1")⟩] []).isSome = true ∧
    programAnswers Config.firstRequester State.reset.cmdTable State.reset.subTable
      [⟨none, .escape (.bytesOf "R1")⟩] [] = none ∧
    State.reset.runEnded Config.firstRequester = true ∧ (one ⟨5#8, 0#8, 0#8, []⟩).pending ≠ [] :=
  ⟨by decide, by decide, rfl, by simp [one]⟩

/-- An execution: a request is sent, answered, and the block then waits. -/
def sent : State := State.reset.submit Config.firstRequester ⟨1#8, 0#8, 0#8, []⟩

/-- The state after it is answered. -/
def done : State := (sent.serve ⟨Config.firstRequester, ⟨1#8, 0#8, 0#8, []⟩⟩ []).deliver
  ⟨Config.firstRequester, ⟨1#8, 0#8, 0#8, []⟩⟩ [] (.ok (.escaped []))

/-- The states of that execution. -/
def execution : Nat → State
  | 0 => State.reset
  | 1 => sent
  | _ + 2 => done

theorem witness_FiniteRequestsGiveFairness :
    Execution execution ∧ ∀ n ≥ 1, step (execution n) = .next (execution (n + 1)) := by
  have h : ∀ n ≥ 1, step (execution n) = .next (execution (n + 1)) := by
    intro n hn
    match n, hn with
    | 1, _ => rfl
    | n + 2, _ => rfl
  refine ⟨fun n => ?_, h⟩
  match n with
  | 0 => exact .inr ⟨Config.firstRequester, ⟨1#8, 0#8, 0#8, []⟩, rfl⟩
  | n + 1 => exact .inl (h (n + 1) (by omega))

end Sys2Proof.Tests
end

section
/-! PROOF. The machine as a whole: what a step, a request sent, a run and a requester program do to the state, and the
statements of that family. Every answer a step adds is `Laws.ruleAnswer` of the state it starts from. -/

namespace Sys2Proof.Proofs

open Sys2Proof.Machine Sys2Proof.Safety Sys2Proof.Laws

/-! ### The answers of the rules -/

@[simp] theorem ruleAnswer_requester (s : State) (p : Submission) : (ruleAnswer s p).requester = p.requester := rfl
@[simp] theorem ruleAnswer_request (s : State) (p : Submission) : (ruleAnswer s p).request = p.request := rfl
@[simp] theorem ruleAnswer_response (s : State) (p : Submission) :
    (ruleAnswer s p).response = requestResponse s.cmdTable s.subTable p.request := rfl

/-- The answers of the rules read the registry tables of the state and nothing else of it. -/
theorem ruleAnswer_congr {s t : State} (hc : t.cmdTable = s.cmdTable) (hb : t.subTable = s.subTable) :
    ruleAnswer t = ruleAnswer s := by
  funext p
  simp only [ruleAnswer, hc, hb]

/-- A step with requests outstanding answers one of them by the rules, the others staying outstanding in order. -/
theorem step_answers_one {s : State} (h : s.pending ≠ []) :
    ∃ t before p after, s.pending = before ++ p :: after ∧ step s = .next t ∧ t.pending = before ++ after ∧
      t.answered = s.answered ++ [ruleAnswer s p] ∧
      t.cmdTable = s.cmdTable ∧ t.subTable = s.subTable ∧ t.turn = s.turn + 1 := by
  obtain ⟨before, p, after, hp, hc⟩ := choose_split h
  exact ⟨_, before, p, after, hp, step_of_choose hc, rfl, rfl, rfl, rfl, rfl⟩

/-- Settles O35: the choice splits the outstanding list at one request, and that one is answered. -/
theorem everyStepAnswersOneOutstandingRequest : Obligations.EveryStepAnswersOneOutstandingRequest := by
  intro s h
  obtain ⟨t, before, p, after, hp, hs, hrest⟩ := step_answers_one h
  exact ⟨t, p, before, after, hp, hs, hrest⟩

/-! ### The invariant -/

/-- The invariant outlives any change that keeps the registry and adds answers of the rules alone. -/
theorem inv_of_ruleAnswers_added {s t : State} (hs : Inv s) (served : List Submission)
    (ha : t.answered = s.answered ++ served.map (ruleAnswer s))
    (hc : t.cmdTable = s.cmdTable) (hb : t.subTable = s.subTable) : Inv t := by
  obtain ⟨⟨hcmd, hsub⟩, hans⟩ := hs
  refine ⟨⟨hc.trans hcmd, hb.trans hsub⟩, fun a hmem => ?_⟩
  rw [ha, List.mem_append] at hmem
  rcases hmem with hold | hnew
  · exact hans a hold
  · obtain ⟨p, -, rfl⟩ := List.mem_map.mp hnew
    simp [hcmd, hsub]

theorem submit_keeps_inv {s : State} (hs : Inv s) (requester : Fin Config.requesters) (request : Request) :
    Inv (s.submit requester request) :=
  inv_of_ruleAnswers_added hs [] (by simp) rfl rfl

theorem step_keeps_inv {s : State} (hs : Inv s) : ∃ t, step s = .next t ∧ Inv t := by
  by_cases h : s.pending = []
  · exact ⟨s, step_idle h, hs⟩
  · obtain ⟨t, _, p, _, _, hstep, _, ha, hc, hb, _⟩ := step_answers_one h
    exact ⟨t, hstep, inv_of_ruleAnswers_added hs [p] ha hc hb⟩

/-- Settles O46: a step adds at most one answer of the rules, sending a request adds none, and both keep the
registry. -/
theorem invariantIsKept : Obligations.InvariantIsKept :=
  fun _ hs => ⟨step_keeps_inv hs, submit_keeps_inv hs⟩

/-- Settles O47: the tables are loaded at reset and no answer is there to be wrong. -/
theorem invariantHoldsAtReset : Obligations.InvariantHoldsAtReset where
  tables := ⟨rfl, rfl⟩
  answers := by simp [AnswersFollowRules]

/-! ### The limits on an operand -/

/-- The two limits decide the response of every operation: the operand's first, then the envelope's (R149). -/
theorem instrResponse_eq_limited (cmds subs : RegistryTable) (i : Instr) :
    ∃ result, resultFits i result ∧ instrResponse cmds subs i =
      limited i.data (if i.withinEnvelope then .ok result else .refused .envTooLong) := by
  cases i with
  | escape data => exact ⟨.escaped (escapeBytes data), trivial, rfl⟩
  | unescape data => exact ⟨.unescaped (unescapeBytes data) (unescapeMarks data), trivial, rfl⟩
  | checksum hdr len data => exact ⟨.checksum (checksumOf hdr len data), trivial, rfl⟩
  | decode data => exact ⟨.decoded (breakDown cmds subs data), trivial, rfl⟩
  | encode data =>
    refine ⟨.frame (buildFrame data), trivial, ?_⟩
    simp only [instrResponse, encodeResponse, envelopeLimited, Instr.withinEnvelope, Instr.data, decide_eq_true_eq]

theorem wellFormed_iff (i : Instr) :
    i.wellFormed = true ↔ i.data.length ≤ Config.maxSeq ∧ i.withinEnvelope = true := by
  simp [Instr.wellFormed, Instr.withinMaxSeq]

/-- Settles O33: the operation is well formed exactly where neither limit refuses it. -/
theorem operationsWithinLimitsArePerformed : Obligations.OperationsWithinLimitsArePerformed := by
  intro i s p others hp
  simp only [performs_iff hp]
  obtain ⟨result, hfits, hresp⟩ := instrResponse_eq_limited s.cmdTable s.subTable i
  constructor
  · intro hwf
    obtain ⟨hlen, henv⟩ := (wellFormed_iff i).mp hwf
    exact ⟨result, hfits, by simp [hresp, limited_of_le hlen, henv]⟩
  · intro hwf
    by_cases hlen : i.data.length ≤ Config.maxSeq
    · have henv : i.withinEnvelope = false := by simpa [Instr.wellFormed, Instr.withinMaxSeq, hlen] using hwf
      exact ⟨.envTooLong, by simp [hresp, limited_of_le hlen, henv]⟩
    · exact ⟨.inputTooLong, by rw [hresp, limited_of_lt (by omega)]⟩

/-! ### The request a step performs -/

/-- Decoding the request of an operation gives the operation back. -/
theorem decode_encode : ∀ i : Instr, decode (encode i) = .ok i
  | .escape data => RoundTrip.escape data
  | .unescape data => RoundTrip.unescape data
  | .checksum hdr len data => RoundTrip.checksum hdr len data
  | .encode data => RoundTrip.encode data
  | .decode data => RoundTrip.decode data

theorem step_of_choose_decode {s s' : State} {p : Submission} {i : Instr}
    (h : s.choose = some (p, s')) (hd : decode p.request = .ok i) : step s = exec i s' := by
  simp only [step, h, hd]

/-- The only outstanding request is served where it stands, so the choice moves the counter alone. -/
theorem serve_only {s : State} {p : Submission} (h : s.pending = [p]) :
    s.serve p [] = { s with turn := s.turn + 1 } := by
  simp only [State.serve, ← h]

theorem step_of_only {s : State} {p : Submission} {i : Instr}
    (h : s.pending = [p]) (hd : decode p.request = .ok i) : step s = exec i { s with turn := s.turn + 1 } :=
  serve_only h ▸ step_of_choose_decode (choose_one h) hd

/-- Settles O37: by the definition of the step, with the choice among one request and the round trip of the encoder. -/
theorem stepPerformsDecodedRequest : Obligations.StepPerformsDecodedRequest :=
  ⟨fun _ _ _ _ => step_of_choose_decode, fun _ _ _ => step_of_only,
    fun _ i _ => step_of_only rfl (decode_encode i)⟩

/-! ### What the step does not read -/

/-- The choice reads the counter and the length of the outstanding list alone: where every request is changed by `f`,
the same one is chosen. -/
theorem choose_map {s u : State} {p : Submission} {others : List Submission} (f : Submission → Submission)
    (hp : u.pending = s.pending.map f) (ht : u.turn = s.turn)
    (h : s.choose = some (p, s.serve p others)) : u.choose = some (f p, u.serve (f p) (others.map f)) := by
  simp only [State.choose, Option.map_eq_some_iff, Prod.mk.injEq] at h
  obtain ⟨⟨x, rest⟩, htake, rfl, hserve⟩ := h
  have hrest : rest = others := by simpa using congrArg State.pending hserve
  simp [State.choose, hp, ht, takeAt_map, htake, hrest]

theorem decode_clearIgnored (r : Request) : decode (clearIgnored r) = decode r := by
  by_cases h : r.op = 0x03#8
  · simp [clearIgnored, h]
  · simp [clearIgnored, decode, h]

theorem requestResponse_clearIgnored (cmds subs : RegistryTable) (r : Request) :
    requestResponse cmds subs (clearIgnored r) = requestResponse cmds subs r := by
  simp only [requestResponse, decode_clearIgnored]

/-- Settles O39: both steps choose the same request, and clearing keeps what it decodes to. -/
theorem ignoredFieldsAreNotRead : Obligations.IgnoredFieldsAreNotRead := by
  intro s
  by_cases h : s.pending = []
  · exact ⟨s, step_idle h, step_idle (by simp [clearIgnoredAll, h])⟩
  · obtain ⟨before, p, after, -, hc⟩ := choose_split h
    have hc' := choose_map (u := clearIgnoredAll s) (fun p => { p with request := clearIgnored p.request }) rfl rfl hc
    refine ⟨_, step_of_choose hc, (step_of_choose hc').trans ?_⟩
    simp [clearIgnoredAll, State.serve, State.deliver, answerOf, requestResponse_clearIgnored]

/-! ### A request sent to an idle block -/

theorem step_submit_of_idle {s : State} (h : s.pending = []) (requester : Fin Config.requesters) (request : Request) :
    ∃ t, step (s.submit requester request) = .next t ∧
      t.answered = s.answered ++ [ruleAnswer s ⟨requester, request⟩] :=
  ⟨_, step_of_choose (choose_one (by simp [h])), rfl⟩

/-- Settles O40: both blocks answer by the rules, which read the registry alone, and both have it loaded. -/
theorem firstRequestIsHandledLikeEveryLaterOne : Obligations.FirstRequestIsHandledLikeEveryLaterOne := by
  refine ⟨rfl, rfl, fun s requester request hidle htables => ?_⟩
  obtain ⟨hcmd, hsub⟩ := htables
  obtain ⟨t, ht, ha⟩ := step_submit_of_idle reset_pending requester request
  obtain ⟨t', ht', ha'⟩ := step_submit_of_idle hidle requester request
  rw [ruleAnswer_congr (t := s) (s := State.reset) hcmd hsub] at ha'
  exact ⟨t, t', _, ht, ht', ha, ha'⟩

/-! ### A run -/

theorem run_succ_of_step {s t : State} (h : step s = .next t) (n : Nat) :
    Host.Core.run Sys2Proof.core (n + 1) s = Host.Core.run Sys2Proof.core n t := by
  have hcore : Sys2Proof.core.step s = .next t := h
  simp only [Host.Core.run, hcore]

/-- As many steps as requests are outstanding serve all of them, in the order the choices make. -/
theorem run_serves_all (n : Nat) (s : State) (hn : s.pending.length = n) :
    ∃ (t : State) (order : List Submission), Host.Core.run Sys2Proof.core n s = .next t ∧ t.pending = [] ∧
      order.Perm s.pending ∧ t.answered = s.answered ++ order.map (ruleAnswer s) ∧
      t.cmdTable = s.cmdTable ∧ t.subTable = s.subTable := by
  induction n generalizing s with
  | zero =>
    have hnil : s.pending = [] := List.length_eq_zero_iff.mp hn
    exact ⟨s, [], rfl, hnil, by simp [hnil], by simp, rfl, rfl⟩
  | succ n ih =>
    have hne : s.pending ≠ [] := List.ne_nil_of_length_eq_add_one hn
    obtain ⟨u, before, p, after, hp, hstep, hu, hua, huc, hub, -⟩ := step_answers_one hne
    obtain ⟨t, order, hrun, ht, hperm, hta, htc, htb⟩ := ih u (by simp [hp, hu] at hn ⊢; omega)
    refine ⟨t, p :: order, (run_succ_of_step hstep n).trans hrun, ht, ?_, ?_, htc.trans huc, htb.trans hub⟩
    · rw [hp]
      exact ((hu ▸ hperm).cons p).trans List.perm_middle.symm
    · simp [hta, hua, ruleAnswer_congr huc hub]

/-- Settles O48: by induction on the number of requests outstanding. -/
theorem runAnswersEveryRequestOnce : Obligations.RunAnswersEveryRequestOnce := by
  intro s
  obtain ⟨t, order, hrun, ht, hperm, hrest⟩ := run_serves_all _ s rfl
  exact ⟨t, order, hrun, ht, fun requester => runEnded_of_pending_nil t requester ht, hperm, hrest⟩

/-! ### The requests a requester has sent -/

theorem step_keeps_sentBy (q : Fin Config.requesters) (s : State) :
    ∃ t, step s = .next t ∧ (sentBy q t).Perm (sentBy q s) := by
  by_cases h : s.pending = []
  · exact ⟨s, step_idle h, .refl _⟩
  · obtain ⟨t, before, p, after, hp, hstep, ht, ha, -, -, -⟩ := step_answers_one h
    have hrec : t.received q = s.received q ++ _ := received_of_served (served := [p]) ha q
    refine ⟨t, hstep, ?_⟩
    by_cases hq : p.requester = q
    · have hmid := (List.perm_middle (a := p.request)
        (l₁ := (before.filter fun x => decide (x.requester = q)).map Submission.request)
        (l₂ := (after.filter fun x => decide (x.requester = q)).map Submission.request)).symm
      simpa [sentBy, hrec, ht, hp, hq] using hmid.append_left ((s.received q).map Answer.request)
    · simp [sentBy, hrec, ht, hp, hq]

theorem sentBy_submit (q : Fin Config.requesters) (s : State) (requester : Fin Config.requesters) (request : Request) :
    sentBy q (s.submit requester request) = sentBy q s ++ if requester = q then [request] else [] := by
  by_cases hq : requester = q <;> simp [sentBy, hq]

theorem runEnded_iff_received_eq_sentBy (q : Fin Config.requesters) (s : State) :
    s.runEnded q = true ↔ (s.received q).map Answer.request = sentBy q s := by
  rw [runEnded_iff, sentBy, List.self_eq_append_right, List.map_eq_nil_iff, List.filter_eq_nil_iff]
  simp

/-- Settles O50: a step moves the request it answers from one half of its sender's list to the other. -/
theorem runEndsWhenOwnRequestsAreAnswered : Obligations.RunEndsWhenOwnRequestsAreAnswered :=
  fun s q => ⟨step_keeps_sentBy q s, sentBy_submit q s, runEnded_iff_received_eq_sentBy q s⟩

/-! ### Requester programs -/

theorem programAnswers_length {q : Fin Config.requesters} {cmds subs : RegistryTable} {lines : List Line}
    {named : Named} {answers : List Answer} (h : programAnswers q cmds subs lines named = some answers) :
    answers.length = lines.length := by
  induction lines generalizing named answers with
  | nil =>
    obtain rfl : [] = answers := by simpa [programAnswers] using h
    rfl
  | cons l rest ih =>
    cases hl : lineEncoding named l with
    | none => simp [programAnswers, hl] at h
    | some r =>
      simp only [programAnswers, hl, Option.map_eq_some_iff] at h
      obtain ⟨later, hlater, rfl⟩ := h
      simp [ih hlater]

theorem runLine_none {q : Fin Config.requesters} {l : Line} {run : ProgramRun}
    (h : lineEncoding run.named l = none) : runLine q l run = none := by
  simp only [runLine, h]

/-- A program with a line whose operand has no value has no run. -/
theorem runLines_none {q : Fin Config.requesters} {lines : List Line} {run : ProgramRun}
    (h : programAnswers q run.block.cmdTable run.block.subTable lines run.named = none) :
    runLines q lines run = none := by
  induction lines generalizing run with
  | nil => simp [programAnswers] at h
  | cons l rest ih =>
    cases hl : lineEncoding run.named l with
    | none => simp only [runLines, runLine_none hl]
    | some r =>
      obtain ⟨t, hline, -, hc, hb, -⟩ := runLine_reads_own_answer q l run r hl
      simp only [programAnswers, hl, Option.map_eq_none_iff] at h
      simp only [runLines, hline]
      exact ih (by simpa [hc, hb] using h)

/-- A program whose operands have values runs to its end and receives the answers R178 gives it, after those of the
lines before. -/
theorem runLines_receives {q : Fin Config.requesters} {lines : List Line} {run : ProgramRun} {answers : List Answer}
    (h : programAnswers q run.block.cmdTable run.block.subTable lines run.named = some answers) :
    ∃ last, runLines q lines run = some last ∧ last.received = run.received ++ answers ∧
      last.block.cmdTable = run.block.cmdTable ∧ last.block.subTable = run.block.subTable ∧
      (lines ≠ [] ∨ run.block.runEnded q = true → last.block.runEnded q = true) ∧
      (run.block.runEnded q = true → last.block.received q = run.block.received q ++ answers) := by
  induction lines generalizing run answers with
  | nil =>
    obtain rfl : [] = answers := by simpa [programAnswers] using h
    exact ⟨run, rfl, by simp, rfl, rfl, by simp, by simp⟩
  | cons l rest ih =>
    cases hl : lineEncoding run.named l with
    | none => simp [programAnswers, hl] at h
    | some r =>
      obtain ⟨t, hline, hend, hc, hb, hrec⟩ := runLine_reads_own_answer q l run r hl
      simp only [programAnswers, hl, Option.map_eq_some_iff] at h
      obtain ⟨later, hlater, rfl⟩ := h
      obtain ⟨last, hlast, hgot, hcmd, hsub, hended, hadded⟩ :=
        ih (run := ⟨_, run.received ++ [⟨q, r, _⟩], t⟩) (by simpa only [hc, hb] using hlater)
      refine ⟨last, by simpa only [runLines, hline] using hlast, by simp [hgot], hcmd.trans hc, hsub.trans hb,
        fun _ => hended (.inr hend), fun h0 => ?_⟩
      simp [hadded hend, hrec h0]

/-- Settles O51: by induction on the lines, each of which reads its own answer. -/
theorem programReceivesItsOwnResponses : Obligations.ProgramReceivesItsOwnResponses := by
  intro q lines s
  refine ⟨fun h => runLines_none (run := .start s) h, fun answers h => ?_⟩
  obtain ⟨run, hrun, hgot, hc, hb, hended, hadded⟩ := runLines_receives (run := .start s) h
  exact ⟨run, hrun, hgot, programAnswers_length h, hc, hb, fun hne => hended (.inl hne),
    fun h0 => ⟨hended (.inr h0), hadded h0⟩⟩

end Sys2Proof.Proofs
end

section
/-! PROOF. The encoding family: requests and their operations, what the escaper and the encoder lay out on the wire, the
status bytes, and the text forms. -/

namespace Sys2Proof.Proofs

open Sys2Proof.Machine Sys2Proof.Safety Sys2Proof.Laws

/-! ### Requests and operations (R62, R63, R69) -/

@[simp] theorem encode_op (i : Instr) : (encode i).op = opOf i := by cases i <;> rfl

@[simp] theorem clearIgnored_op (r : Request) : (clearIgnored r).op = r.op := by
  unfold clearIgnored
  split <;> rfl

theorem opOf_range (i : Instr) : 1 ≤ (opOf i).toNat ∧ (opOf i).toNat ≤ 5 := by
  cases i <;> simp [opOf]

@[simp] theorem ofBytes_toBytes (r : Request) : Request.ofBytes r.toBytes = r := rfl

theorem decodeBytes_encodeBytes (i : Instr) : decodeBytes (encodeBytes i) = .ok i := by
  rw [decodeBytes, encodeBytes, ofBytes_toBytes, decode_encode]

/-- A request that decodes differs from its operation's request in ignored fields alone. -/
theorem encode_of_decode {r : Request} {i : Instr} (h : decode r = .ok i) : encode i = clearIgnored r := by
  obtain ⟨op, hdr, len, data⟩ := r
  simp only [decode] at h
  split_ifs at h
  all_goals
    cases h
    subst op
    rfl

theorem decode_eq_ok_iff (r : Request) (i : Instr) : decode r = .ok i ↔ encode i = clearIgnored r :=
  ⟨encode_of_decode, fun h => by rw [← decode_clearIgnored, ← h, decode_encode]⟩

theorem op_range_of_decode {r : Request} {i : Instr} (h : decode r = .ok i) :
    1 ≤ r.op.toNat ∧ r.op.toNat ≤ 5 := by
  have hop : opOf i = r.op := by simpa using congrArg Request.op (encode_of_decode h)
  exact hop ▸ opOf_range i

/-- Settles O41: clearing the ignored fields of a request that decodes gives its operation's request, and decoding
does not see the clearing. -/
theorem decodeAndEncodeAgree : Obligations.DecodeAndEncodeAgree := by
  refine ⟨decodeBytes_encodeBytes, fun r i => ⟨fun h => ?_, fun h => ?_⟩⟩
  · obtain ⟨hlow, hhigh⟩ := op_range_of_decode h
    exact ⟨hlow, hhigh, encode_of_decode h⟩
  · obtain ⟨-, -, henc⟩ := h
    exact (decode_eq_ok_iff r i).mpr henc

/-- Settles O42: by running the decoder on each word. -/
theorem opcodeWordsDecode : Obligations.OpcodeWordsDecode := by
  unfold Obligations.OpcodeWordsDecode
  decide

/-! ### Reserved codes (R63) -/

/-- The rules refuse a request whose op is reserved, since no operation's op is. -/
theorem requestResponse_of_reserved (cmds subs : RegistryTable) {r : Request}
    (h : r.op.toNat = 0 ∨ 5 < r.op.toNat) : requestResponse cmds subs r = .refused .badOp := by
  cases hd : decode r with
  | ok i =>
    have := op_range_of_decode hd
    omega
  | error e =>
    cases e
    simp only [requestResponse, hd, rejectReason]

/-- A chosen request is taken into service, and nothing else but the counter changes. -/
theorem serve_of_choose {s s' : State} {p : Submission} (h : s.choose = some (p, s')) :
    ∃ others, s' = s.serve p others := by
  simp only [State.choose, Option.map_eq_some_iff, Prod.mk.injEq] at h
  obtain ⟨⟨_, others⟩, -, rfl, hs⟩ := h
  exact ⟨others, hs.symm⟩

/-- Settles O31: the step delivers the answer of the rules to the chosen request, and that is the refusal. -/
theorem reservedOpIsRefused : Obligations.ReservedOpIsRefused := by
  intro s s' p hc hop
  obtain ⟨others, rfl⟩ := serve_of_choose hc
  refine ⟨_, others, rfl, step_of_choose hc, ?_⟩
  rw [requestResponse_of_reserved _ _ hop]
  exact served_deliver _ _ _ _

/-! ### Status bytes (R65, R148) -/

theorem statusByte_le (response : Response) : (statusByte response).toNat ≤ 3 := by
  rcases response with _ | (_ | _ | _) <;> simp [statusByte]

theorem statusByte_eq_zero_iff (response : Response) :
    statusByte response = 0x00#8 ↔ ∃ r, resultOf response = some r := by
  rcases response with _ | (_ | _ | _) <;> simp [statusByte, resultOf]

/-- Settles O34: by the table of the status bytes. -/
theorem statusBytesAreThoseListed : Obligations.StatusBytesAreThoseListed :=
  ⟨fun _ => rfl, rfl, rfl, rfl, fun response => ⟨statusByte_le response, statusByte_eq_zero_iff response⟩⟩

/-! ### The on-wire form of an envelope (R57, R87) -/

theorem wireByte_length (b : U8) : (wireByte b).length = 1 + if b ∈ protectedSet then 1 else 0 := by
  rcases wireByte_cases b with ⟨hb, hw⟩ | ⟨hb, hw, -⟩ <;> simp [hw, hb]

theorem length_flatMap_wireByte (data : List U8) :
    (data.flatMap wireByte).length = data.length + protectedCount data := by
  induction data with
  | nil => rfl
  | cons b data ih =>
    simp only [protectedCount] at ih
    simp only [List.flatMap_cons, List.length_append, wireByte_length, ih, protectedCount, List.countP_cons,
      List.length_cons, decide_eq_true_eq]
    omega

theorem protectedCount_le (data : List U8) : protectedCount data ≤ data.length := List.countP_le_length

/-- A complement that stands for a protected byte is not protected itself. -/
theorem complement_not_protected {c : U8} (h : c ∈ [0x00#8, 0x01#8, 0x02#8]) : c ∉ protectedSet := by
  have hall : ∀ c ∈ [0x00#8, 0x01#8, 0x02#8], c ∉ protectedSet := by decide
  exact hall c h

/-- Of the protected values the escaped form holds 0xFD alone. -/
theorem mem_escaped {data : List U8} {x : U8} (h : x ∈ data.flatMap wireByte) : x = 0xFD#8 ∨ x ∉ protectedSet := by
  obtain ⟨b, -, hx⟩ := List.mem_flatMap.mp h
  rcases wireByte_cases b with ⟨hb, hw⟩ | ⟨-, hw, hc⟩
  · obtain rfl : x = b := by simpa [hw] using hx
    exact .inr hb
  · rw [hw, List.mem_pair] at hx
    rcases hx with rfl | rfl
    · exact .inl rfl
    · exact .inr (complement_not_protected hc)

theorem header_not_mem_escaped (data : List U8) : 0xFE#8 ∉ data.flatMap wireByte := fun h => by
  simpa [protectedSet] using mem_escaped h

theorem tail_not_mem_escaped (data : List U8) : 0xFF#8 ∉ data.flatMap wireByte := fun h => by
  simpa [protectedSet] using mem_escaped h

/-- In the escaped form a 0xFD stands before the complement of a protected byte only. -/
theorem escapeMark_followed {data : List U8} {k : Nat} (h : (data.flatMap wireByte)[k]? = some 0xFD#8) :
    ∃ c ∈ [0x00#8, 0x01#8, 0x02#8], (data.flatMap wireByte)[k + 1]? = some c := by
  induction data generalizing k with
  | nil => simp at h
  | cons b data ih =>
    rw [List.flatMap_cons] at h ⊢
    rcases wireByte_cases b with ⟨hb, hw⟩ | ⟨-, hw, hc⟩ <;> rw [hw] at h ⊢
    · match k with
      | 0 =>
        obtain rfl : b = 0xFD#8 := by simpa using h
        exact absurd (by decide) hb
      | k + 1 => exact ih h
    · match k with
      | 0 => exact ⟨~~~b, hc, rfl⟩
      | 1 =>
        have hmark : ~~~b = 0xFD#8 := by simpa using h
        exact absurd (hmark ▸ by decide) (complement_not_protected hc)
      | k + 2 => exact ih h

/-! ### A frame by position (R55) -/

section
variable (h l c t : U8) (esc : List U8)

theorem frame_length : ([h, l] ++ esc ++ [c, t]).length = esc.length + 4 := by simp

theorem frame_getElem?_escaped {k : Nat} (hk : k < esc.length) :
    ([h, l] ++ esc ++ [c, t])[2 + k]? = esc[k]? := by
  rw [Nat.add_comm, List.append_assoc]
  exact List.getElem?_append_left hk

theorem frame_getElem?_after (k : Nat) : ([h, l] ++ esc ++ [c, t])[esc.length + 2 + k]? = [c, t][k]? := by
  rw [List.getElem?_append_right (by simp)]
  congr 1
  simp

theorem frame_take_escaped : (([h, l] ++ esc ++ [c, t]).drop 2).take esc.length = esc := List.take_left

variable {h l c t esc}

/-- What stands at an offset of a frame, from the header to the tail. -/
theorem frame_getElem?_cases {k : Nat} {x : U8} (hx : ([h, l] ++ esc ++ [c, t])[k]? = some x) :
    (k = 0 ∧ x = h) ∨ (k = 1 ∧ x = l) ∨ (∃ j, k = 2 + j ∧ j < esc.length ∧ esc[j]? = some x) ∨
      (k = esc.length + 2 ∧ x = c) ∨ (k = esc.length + 3 ∧ x = t) := by
  match k with
  | 0 => exact .inl ⟨rfl, by simpa using hx.symm⟩
  | 1 => exact .inr (.inl ⟨rfl, by simpa using hx.symm⟩)
  | k + 2 =>
    by_cases hk : k < esc.length
    · rw [Nat.add_comm, frame_getElem?_escaped h l c t esc hk] at hx
      exact .inr (.inr (.inl ⟨k, Nat.add_comm _ _, hk, hx⟩))
    · obtain ⟨j, rfl⟩ : ∃ j, k = esc.length + j := ⟨k - esc.length, by omega⟩
      rw [Nat.add_right_comm, frame_getElem?_after] at hx
      match j with
      | 0 => exact .inr (.inr (.inr (.inl ⟨rfl, by simpa using hx.symm⟩)))
      | 1 => exact .inr (.inr (.inr (.inr ⟨by omega, by simpa using hx.symm⟩)))
      | j + 2 => simp at hx

end

/-! ### What ESCAPE, CHECKSUM and ENCODE answer -/

section
variable {s : State} {p : Submission} {others : List Submission} (hp : s.pending = p :: others) {data : List U8}
include hp

theorem performs_escape_limited (data : List U8) : Performs (.escape data) s p others
    (if Config.maxSeq < data.length then .refused .inputTooLong else .ok (.escaped (data.flatMap wireByte))) := by
  rw [performs_iff hp, instrResponse, escapeResponse, limited_eq_ite, escapeBytes_eq]

theorem performs_escape (hlen : data.length ≤ Config.maxSeq) :
    Performs (.escape data) s p others (.ok (.escaped (data.flatMap wireByte))) := by
  simpa [Nat.not_lt.mpr hlen] using performs_escape_limited hp data

theorem performs_checksum (hdr len : U8) (hlen : data.length ≤ Config.maxSeq) :
    Performs (.checksum hdr len data) s p others (.ok (.checksum (checksumSum hdr len data))) := by
  rw [performs_iff hp, instrResponse, checksumResponse, limited_of_le hlen, checksumOf_eq]

theorem performs_encode (hmax : data.length ≤ Config.maxSeq) (henv : data.length ≤ 255) :
    Performs (.encode data) s p others (.ok (.frame (wireFrame data))) := by
  rw [performs_iff hp, ← buildFrame_eq, instrResponse, encodeResponse, limited_of_le hmax]
  exact if_pos henv

end

/-- An envelope ENCODE takes is within the limit on operands too. -/
theorem le_maxSeq_of_envelope {data : List U8} (h : data.length ≤ 255) : data.length ≤ Config.maxSeq :=
  Nat.le_trans (Nat.le_trans h (by decide)) maxSeq_ge

/-- Settles O1: the escaper's table gives the form, and two bytes for one exactly at a protected byte its length. -/
theorem escapeAnswersWireForm : Obligations.EscapeAnswersWireForm := by
  intro s p others hdr len data hp
  refine ⟨rfl, performs_escape_limited hp data, length_flatMap_wireByte data, ?_⟩
  have := protectedCount_le data
  rw [length_flatMap_wireByte]
  omega

theorem lengthByte_toNat {data : List U8} (h : data.length ≤ 255) : (lengthByte data).toNat = data.length := by
  rw [lengthByte, BitVec.toNat_ofNat, Nat.mod_eq_of_lt (by omega)]

theorem checksumSum_le (hdr len : U8) (data : List U8) : (checksumSum hdr len data).toNat ≤ 0x7F := by
  rw [checksumSum_toNat]
  omega

theorem checksumSum_not_protected (hdr len : U8) (data : List U8) : checksumSum hdr len data ∉ protectedSet := by
  intro hmem
  have hbig : ∀ x ∈ protectedSet, 0x7F < x.toNat := by decide
  exact absurd (checksumSum_le hdr len data) (Nat.not_le.mpr (hbig _ hmem))

theorem wireFrame_length (data : List U8) : (wireFrame data).length = (data.flatMap wireByte).length + 4 :=
  frame_length _ _ _ _ _

/-- Settles O14: the frame is the layout of `wireFrame`, read by offset. -/
theorem frameIsLaidOutByOffset : Obligations.FrameIsLaidOutByOffset := by
  intro s p others data hp henv
  have hmax := le_maxSeq_of_envelope henv
  exact ⟨wireFrame data, _, lengthByte data, _, performs_encode hp hmax henv, performs_escape hp hmax,
    performs_checksum hp _ _ hmax, lengthByte_toNat henv, wireFrame_length data, rfl, rfl,
    fun _ => frame_getElem?_escaped _ _ _ _ _, frame_getElem?_after _ _ _ _ _ 0, frame_getElem?_after _ _ _ _ _ 1⟩

/-- Settles O15: each invariant is read off the layout, and the length off that of the escaped form. -/
theorem frameKeepsItsInvariants : Obligations.FrameKeepsItsInvariants := by
  intro s p others data hp henv
  have hmax := le_maxSeq_of_envelope henv
  have hlen := wireFrame_length data
  have hesc := length_flatMap_wireByte data
  have hcount := protectedCount_le data
  refine ⟨wireFrame data, _, performs_encode hp hmax henv, performs_escape hp hmax, rfl, ?_,
    ⟨lengthByte data, rfl, lengthByte_toNat henv⟩, ⟨_, ?_, checksumSum_le 0xFE#8 (lengthByte data) data⟩, ?_,
    by omega, by omega, by omega⟩
  · rw [hlen]
    exact frame_getElem?_after _ _ _ _ _ 1
  · rw [hlen]
    exact frame_getElem?_after _ _ _ _ _ 0
  · rw [hlen]
    exact frame_take_escaped _ _ _ _ _

/-- Settles O16: of the positions of a frame, only the edges and the length byte are neither escaped nor below
0x80. -/
theorem protectedValuesStandOnlyAtFrameEdges : Obligations.ProtectedValuesStandOnlyAtFrameEdges := by
  intro s p others data hp henv
  have hlen := wireFrame_length data
  refine ⟨wireFrame data, performs_encode hp (le_maxSeq_of_envelope henv) henv, fun k hlow hhigh => ?_,
    fun k hk => ?_, fun k hk => ?_⟩
  · obtain ⟨j, rfl⟩ := Nat.exists_eq_add_of_le hlow
    have hj : j < (data.flatMap wireByte).length := by omega
    have hget : (wireFrame data)[2 + j]? = (data.flatMap wireByte)[j]? := frame_getElem?_escaped _ _ _ _ _ hj
    rw [hget]
    refine ⟨fun hx => header_not_mem_escaped data (List.mem_of_getElem? hx),
      fun hx => tail_not_mem_escaped data (List.mem_of_getElem? hx), fun hx => ?_⟩
    obtain ⟨c, hc, hnext⟩ := escapeMark_followed hx
    have hj' : j + 1 < (data.flatMap wireByte).length := (List.getElem?_eq_some_iff.mp hnext).1
    exact ⟨by omega, c, hc, (frame_getElem?_escaped _ _ _ _ _ hj').trans hnext⟩
  · rcases frame_getElem?_cases hk with ⟨hk, -⟩ | ⟨hk, -⟩ | ⟨j, -, -, hx⟩ | ⟨-, hx⟩ | ⟨-, hx⟩
    · exact .inl hk
    · exact .inr hk
    · exact absurd (List.mem_of_getElem? hx) (header_not_mem_escaped data)
    · exact absurd (hx ▸ by decide) (checksumSum_not_protected 0xFE#8 (lengthByte data) data)
    · exact absurd hx (by decide)
  · rcases frame_getElem?_cases hk with ⟨-, hx⟩ | ⟨hk, -⟩ | ⟨j, -, -, hx⟩ | ⟨-, hx⟩ | ⟨hk, -⟩
    · exact absurd hx (by decide)
    · exact .inl hk
    · exact absurd (List.mem_of_getElem? hx) (tail_not_mem_escaped data)
    · exact absurd (hx ▸ by decide) (checksumSum_not_protected 0xFE#8 (lengthByte data) data)
    · exact .inr (by omega)

/-! ### Hex text (R66, R67) -/

/-- The values of the two hex digits of a byte. -/
def nibbles (b : U8) : List Nat := [b.toNat / 16, b.toNat % 16]

theorem hexDigit_eq_upperDigits {n : Nat} (h : n < 16) : upperDigits[n]? = some (hexDigit n) := by
  have hall : ∀ n < 16, upperDigits[n]? = some (hexDigit n) := by decide
  exact hall n h

/-- Where the digits of a list have the values of their places, a digit's place is its value. -/
theorem hexValue_of_getElem? {digits : List Char} (hdigits : digits.map hexValue = (List.range 16).map some)
    {v : Nat} {c : Char} (h : digits[v]? = some c) : hexValue c = some v := by
  have hplace := congrArg (fun values => values[v]?) hdigits
  simp only [List.getElem?_map, h, Option.map_some] at hplace
  obtain ⟨w, hw, hval⟩ := Option.map_eq_some_iff.mp hplace.symm
  obtain ⟨_, rfl⟩ := List.getElem?_eq_some_iff.mp hw
  rw [← hval, List.getElem_range]

theorem hexValue_of_digit {v : Nat} {c : Char} (h : upperDigits[v]? = some c ∨ lowerDigits[v]? = some c) :
    hexValue c = some v := by
  rcases h with h | h
  · exact hexValue_of_getElem? (by decide) h
  · exact hexValue_of_getElem? (by decide) h

/-- Every character with a hex value is among the first 103, and those are checked one by one. -/
theorem digit_of_hexValue {v : Nat} {c : Char} (h : hexValue c = some v) :
    upperDigits[v]? = some c ∨ lowerDigits[v]? = some c := by
  have hsmall : c.toNat < 103 := by
    unfold hexValue at h
    split_ifs at h <;> omega
  have hall : ∀ n < 103, ∀ v ∈ hexValue (Char.ofNat n),
      upperDigits[v]? = some (Char.ofNat n) ∨ lowerDigits[v]? = some (Char.ofNat n) := by decide
  rw [← Char.ofNat_toNat c] at h ⊢
  exact hall _ hsmall v h

theorem hexValue_eq_some_iff (c : Char) (v : Nat) :
    hexValue c = some v ↔ upperDigits[v]? = some c ∨ lowerDigits[v]? = some c :=
  ⟨digit_of_hexValue, hexValue_of_digit⟩

theorem hexValue_hexDigit {n : Nat} (h : n < 16) : hexValue (hexDigit n) = some n :=
  hexValue_of_digit (.inl (hexDigit_eq_upperDigits h))

theorem byteText_hexValues (b : U8) : (byteText b).filterMap hexValue = nibbles b := by
  have hlt := b.isLt
  simp [byteText, nibbles, hexValue_hexDigit (n := b.toNat / 16) (by omega),
    hexValue_hexDigit (n := b.toNat % 16) (by omega)]

theorem hexRender_hexValues (bytes : List U8) : (hexRender bytes).filterMap hexValue = bytes.flatMap nibbles := by
  fun_induction hexRender bytes with
  | case1 => rfl
  | case2 b => simp [byteText_hexValues]
  | case3 b c rest ih =>
    have hspace : hexValue ' ' = none := by decide
    simp [byteText_hexValues, hspace, ih]

/-- The digits of whole bytes pair up to those bytes, whatever digits follow. -/
theorem pairDigits_nibbles_append (bytes : List U8) (more : List Nat) :
    pairDigits (bytes.flatMap nibbles ++ more) = bytes ++ pairDigits more := by
  induction bytes with
  | nil => rfl
  | cons b bytes ih =>
    have hb : BitVec.ofNat 8 (16 * (b.toNat / 16) + b.toNat % 16) = b := by
      rw [Nat.div_add_mod, BitVec.ofNat_toNat, BitVec.setWidth_eq]
    simp only [List.flatMap_cons, nibbles, List.cons_append, List.nil_append, pairDigits, hb, ih]

/-- A text with the hex digits of a rendering parses to its bytes, and one character more changes nothing: it is no
digit, or the odd one. -/
theorem hexParse_of_hexValues {bytes : List U8} {text : List Char}
    (h : text.filterMap hexValue = (hexRender bytes).filterMap hexValue) :
    hexParse text = bytes ∧ ∀ c : Char, hexParse (text ++ [c]) = bytes := by
  rw [hexRender_hexValues] at h
  constructor
  · simpa [hexParse, h, pairDigits] using pairDigits_nibbles_append bytes []
  · intro c
    rw [hexParse, List.filterMap_append, h, pairDigits_nibbles_append]
    cases hc : hexValue c <;> simp [hc, pairDigits]

/-- Settles O43: the digits of a rendering are those of its bytes in order, and they pair up to the bytes again. -/
theorem hexParseInvertsRender : Obligations.HexParseInvertsRender := by
  refine ⟨hexValue_eq_some_iff, fun bytes => ?_, fun bytes text h => hexParse_of_hexValues h⟩
  obtain ⟨hparse, -⟩ := hexParse_of_hexValues (bytes := bytes) rfl
  exact hparse

theorem hexRender_length (bytes : List U8) : (hexRender bytes).length = 3 * bytes.length - 1 := by
  fun_induction hexRender bytes with
  | case1 => rfl
  | case2 b => rfl
  | case3 b c rest ih =>
    simp [ih, byteText]
    omega

theorem hexRender_getElem? {bytes : List U8} {k : Nat} {b : U8} (h : bytes[k]? = some b) :
    (hexRender bytes)[3 * k]? = some (hexDigit (b.toNat / 16)) ∧
    (hexRender bytes)[3 * k + 1]? = some (hexDigit (b.toNat % 16)) ∧
    (k + 1 < bytes.length → (hexRender bytes)[3 * k + 2]? = some ' ') := by
  fun_induction hexRender bytes generalizing k with
  | case1 => simp at h
  | case2 a =>
    match k with
    | 0 =>
      obtain rfl : a = b := by simpa using h
      exact ⟨rfl, rfl, by simp⟩
    | k + 1 => simp at h
  | case3 a c rest ih =>
    match k with
    | 0 =>
      obtain rfl : a = b := by simpa using h
      exact ⟨rfl, rfl, fun _ => rfl⟩
    | k + 1 =>
      obtain ⟨hhigh, hlow, hspace⟩ := ih h
      exact ⟨hhigh, hlow, fun hk => hspace (Nat.lt_of_succ_lt_succ hk)⟩

/-- Settles O44: by induction on the bytes, three characters further for each. -/
theorem hexRenderHasTheStatedForm : Obligations.HexRenderHasTheStatedForm := by
  refine fun bytes => ⟨hexRender_length bytes, fun k b h => ?_⟩
  have hlt := b.isLt
  rw [hexDigit_eq_upperDigits (n := b.toNat / 16) (by omega), hexDigit_eq_upperDigits (n := b.toNat % 16) (by omega)]
  exact hexRender_getElem? h

/-! ### Request lines (R69) -/

/-- Settles O45: each mnemonic's record is its operation's request, at the values of the operands. -/
theorem lineEncodingSetsNamedFieldsOnly : Obligations.LineEncodingSetsNamedFieldsOnly := by
  intro named d h l data hdr len r hdata hhdr hlen
  simp only [lineEncoding, requestValue, hdata, hhdr, hlen, Option.map_some]
  exact ⟨rfl, rfl, rfl, rfl, rfl, fun _ => trivial⟩

end Sys2Proof.Proofs
end

section
/-! PROOF. The escaper: what UNESCAPE reads left to right, and how it undoes ESCAPE, alone and inside DECODE. -/

namespace Sys2Proof.Proofs

open Sys2Proof.Machine Sys2Proof.Safety Sys2Proof.Laws

/-! ### UNESCAPE of an escaped payload (R90, R93) -/

theorem unescapeBytes_escaped (data rest : List U8) :
    unescapeBytes (data.flatMap wireByte ++ rest) = data ++ unescapeBytes rest := by
  simp [unescapeBytes, unescapeScan_escaped, Function.comp_def]

theorem unescapeMarks_escaped (data rest : List U8) :
    unescapeMarks (data.flatMap wireByte ++ rest) =
      (data.map fun b => decide (b ∈ protectedSet)) ++ unescapeMarks rest := by
  simp [unescapeMarks, unescapeScan_escaped, Function.comp_def]

/-! ### Left-to-right readings (R89 to R92) -/

/-- 0xFF is the byte of all ones. -/
theorem complement_eq_sub (b : U8) : ~~~b = 0xFF#8 - b := (BitVec.allOnes_sub_eq_not b).symm

/-- A plain byte other than 0xFD may stand before any reading. -/
theorem readable_plain_cons {b : U8} (hb : b ≠ 0xFD#8) (tokens : List Token) :
    readable (.plain b :: tokens) ↔ readable tokens := by
  cases tokens <;> simp [readable, hb]

/-- A pair may stand before any reading. -/
theorem readable_pair_cons (c : U8) (tokens : List Token) : readable (.pair c :: tokens) ↔ readable tokens := by
  cases tokens <;> simp [readable]

/-- The scan yields the values and markers of the reading of its operand. -/
theorem unescapeScan_wireOf {tokens : List Token} (h : readable tokens) :
    unescapeScan (wireOf tokens) = tokens.map fun token => (token.value, token.mark) := by
  induction tokens with
  | nil => rfl
  | cons token tokens ih =>
    cases token with
    | pair c =>
      have htail := ih ((readable_pair_cons c tokens).mp h)
      calc unescapeScan (wireOf (.pair c :: tokens))
        _ = (~~~c, true) :: unescapeScan (wireOf tokens) := unescapeScan_pair c (wireOf tokens)
        _ = _ := by rw [htail, complement_eq_sub]; rfl
    | plain b =>
      cases tokens with
      | nil => rfl
      | cons next tokens =>
        obtain ⟨hb, hrest⟩ := h
        calc unescapeScan (wireOf (.plain b :: next :: tokens))
          _ = (b, false) :: unescapeScan (wireOf (next :: tokens)) := unescapeScan_plain hb _
          _ = _ := by rw [ih hrest]; rfl

theorem unescapeBytes_wireOf {tokens : List Token} (h : readable tokens) :
    unescapeBytes (wireOf tokens) = tokens.map Token.value := by
  simp [unescapeBytes, unescapeScan_wireOf h]

theorem unescapeMarks_wireOf {tokens : List Token} (h : readable tokens) :
    unescapeMarks (wireOf tokens) = tokens.map Token.mark := by
  simp [unescapeMarks, unescapeScan_wireOf h]

/-- Every operand has a reading: the one its scan makes. -/
theorem exists_reading (data : List U8) : ∃ tokens, readable tokens ∧ wireOf tokens = data := by
  fun_induction unescapeScan data with
  | case1 => exact ⟨[], trivial, rfl⟩
  | case2 b => exact ⟨[.plain b], trivial, rfl⟩
  | case3 c rest ih =>
    obtain ⟨tokens, hread, hwire⟩ := ih
    exact ⟨.pair c :: tokens, (readable_pair_cons c tokens).mpr hread, congrArg ([0xFD#8, c] ++ ·) hwire⟩
  | case4 b c rest hb ih =>
    obtain ⟨tokens, hread, hwire⟩ := ih
    exact ⟨.plain b :: tokens, (readable_plain_cons hb tokens).mpr hread, congrArg (b :: ·) hwire⟩

/-- A reading covers one byte for each token and one more for each pair. -/
theorem wireOf_length (tokens : List Token) :
    (wireOf tokens).length = tokens.length + (tokens.map Token.mark).count true := by
  induction tokens with
  | nil => rfl
  | cons token tokens ih =>
    have hcons : wireOf (token :: tokens) = token.wire ++ wireOf tokens := rfl
    rw [hcons, List.length_append, ih]
    cases token <;> simp [Token.wire, Token.mark] <;> omega

/-! ### What UNESCAPE and DECODE answer -/

section
variable {s : State} {p : Submission} {others : List Submission} (hp : s.pending = p :: others)
include hp

theorem performs_unescape_limited (data : List U8) : Performs (.unescape data) s p others
    (if Config.maxSeq < data.length then .refused .inputTooLong
     else .ok (.unescaped (unescapeBytes data) (unescapeMarks data))) := by
  rw [performs_iff hp, instrResponse, unescapeResponse, limited_eq_ite]

theorem performs_unescape {data : List U8} (hlen : data.length ≤ Config.maxSeq) :
    Performs (.unescape data) s p others (.ok (.unescaped (unescapeBytes data) (unescapeMarks data))) := by
  simpa [Nat.not_lt.mpr hlen] using performs_unescape_limited hp data

/-- DECODE of header, length, escaped envelope, checksum and tail reads the envelope as UNESCAPE does. -/
theorem performs_decode_fields (h l c t : U8) {esc : List U8} (hne : esc ≠ [])
    (hlen : esc.length + 4 ≤ Config.maxSeq) :
    ∃ dest params, unescapeBytes esc = dest :: params ∧
      Performs (.decode ([h, l] ++ esc ++ [c, t])) s p others
        (.ok (.decoded (.breakdown (breakdownOf s.cmdTable s.subTable h l esc dest params c t)))) := by
  obtain ⟨dest, params, hbytes, hdown⟩ := breakDown_fields s.cmdTable s.subTable h l c t hne
  refine ⟨dest, params, hbytes, ?_⟩
  rw [← frame_length h l c t esc] at hlen
  rw [performs_iff hp, instrResponse, decodeResponse, limited_of_le hlen, hdown]

end

/-! ### The statements -/

theorem wireByte_eq_ite (b : U8) :
    wireByte b = if b = 0xFD#8 ∨ b = 0xFE#8 ∨ b = 0xFF#8 then [0xFD#8, 0xFF#8 - b] else [b] := by
  have hiff : b ∈ protectedSet ↔ b = 0xFD#8 ∨ b = 0xFE#8 ∨ b = 0xFF#8 := by
    simp only [protectedSet, List.mem_cons, List.not_mem_nil]
    tauto
  rw [← complement_eq_sub]
  rcases wireByte_cases b with ⟨hb, hw⟩ | ⟨hb, hw, -⟩
  · rw [hw, if_neg (hiff.not.mp hb)]
  · rw [hw, if_pos (hiff.mp hb)]

/-- Settles O2: by the escaper's table, and for UNESCAPE by whether the first byte opens a pair. -/
theorem protectedValuesAreExactlyThree : Obligations.ProtectedValuesAreExactlyThree := by
  intro s p others b hp
  constructor
  · rw [← wireByte_eq_ite, ← List.flatMap_singleton wireByte b]
    exact performs_escape hp (le_maxSeq_of_envelope (by simp))
  · intro c
    refine ⟨_, _, performs_unescape hp (le_maxSeq_of_envelope (by simp)), ?_⟩
    by_cases hb : b = 0xFD#8
    · subst hb
      simp [unescapeMarks, unescapeScan_pair]
    · have hscan : unescapeScan [b, c] = [(b, false), (c, false)] := unescapeScan_plain hb [c]
      simp [unescapeBytes, unescapeMarks, hscan, hb]

/-- Settles O3: both clauses are those of the escaped form. -/
theorem escapeOutputHidesProtectedValues : Obligations.EscapeOutputHidesProtectedValues := by
  intro s p others data hp hlen
  refine ⟨data.flatMap wireByte, performs_escape hp hlen, fun b hb => ⟨?_, ?_⟩, fun k => escapeMark_followed⟩
  · exact fun h => header_not_mem_escaped data (h ▸ hb)
  · exact fun h => tail_not_mem_escaped data (h ▸ hb)

/-- Settles O4: the escaped form is made byte by byte, and the pair `FD 01` refutes the law for UNESCAPE. -/
theorem escapeActsByteByByte : Obligations.EscapeActsByteByByte := by
  constructor
  · intro s p others a b hp hlen
    have hsum : a.length + b.length ≤ Config.maxSeq := List.length_append ▸ hlen
    refine ⟨_, _, performs_escape hp (by omega), performs_escape hp (by omega), ?_⟩
    rw [← List.flatMap_append]
    exact performs_escape hp hlen
  · intro s p others hp
    exact ⟨performs_unescape hp (le_maxSeq_of_envelope (by decide)),
      performs_unescape hp (le_maxSeq_of_envelope (by decide)), performs_unescape hp (le_maxSeq_of_envelope (by decide))⟩

/-- Settles O5: the scan follows the reading, which takes two bytes for each marker that is `true`. -/
theorem unescapeAnswersLeftToRightReading : Obligations.UnescapeAnswersLeftToRightReading := by
  refine ⟨fun s p others hdr len tokens hp hread => ⟨rfl, ?_, (wireOf_length tokens).symm, ?_⟩, exists_reading⟩
  · rw [← unescapeBytes_wireOf hread, ← unescapeMarks_wireOf hread]
    exact performs_unescape_limited hp _
  · have hpairs : (tokens.map Token.mark).count true ≤ tokens.length := by
      simpa using List.count_le_length (a := true) (l := tokens.map Token.mark)
    rw [wireOf_length]
    omega

/-- Settles O6: the escaped form reads back to the payload, with nothing after it. -/
theorem unescapeInvertsEscape : Obligations.UnescapeInvertsEscape := by
  intro s p others data hp hlen
  refine ⟨data.flatMap wireByte, performs_escape hp hlen, fun hout => ?_⟩
  have hbytes : unescapeBytes (data.flatMap wireByte) = data := by
    simpa [unescapeBytes, unescapeScan] using unescapeBytes_escaped data []
  have hmarks : unescapeMarks (data.flatMap wireByte) = data.map fun b => decide (b ∈ protectedSet) := by
    simpa [unescapeMarks, unescapeScan] using unescapeMarks_escaped data []
  simpa only [hbytes, hmarks] using performs_unescape hp hout

/-- Settles O8: a lone 0xFD after the escaped form is the last byte of the scan. -/
theorem trailingEscapeByteIsKept : Obligations.TrailingEscapeByteIsKept := by
  intro s p others data hp hlen
  have hperf := performs_unescape hp (data := data.flatMap wireByte ++ [0xFD#8])
    (by rw [List.length_append]; exact hlen)
  rw [unescapeBytes_escaped, unescapeMarks_escaped] at hperf
  exact hperf

/-- Settles O23: the envelope DECODE cuts out ends in the lone 0xFD, and the checksum is read by position. -/
theorem escapeSplitByEnvelopeEndIsKept : Obligations.EscapeSplitByEnvelopeEndIsKept := by
  intro s p others h l c t e hp hlen
  obtain ⟨dest, params, hbytes, hperf⟩ := performs_decode_fields hp h l c t
    (esc := e.flatMap wireByte ++ [0xFD#8]) (by simp) (by rw [List.length_append]; exact hlen)
  refine ⟨_, by simpa using hperf, ?_, unescapeMarks_escaped e [0xFD#8], rfl, rfl⟩
  exact hbytes.symm.trans (unescapeBytes_escaped e [0xFD#8])

/-- Settles O7: each answer by running the escaper. -/
theorem unescapeIsNotInjective : Obligations.UnescapeIsNotInjective := by
  intro s p others hp
  exact ⟨performs_unescape hp (le_maxSeq_of_envelope (by decide)),
    performs_unescape hp (le_maxSeq_of_envelope (by decide)), performs_escape hp (le_maxSeq_of_envelope (by decide))⟩

end Sys2Proof.Proofs
end

section
/-! PROOF. The checksum calculator: the statements of that family. CHECKSUM answers a function of one natural number
modulo 128, the exact sum of its arguments; each statement is arithmetic on that sum. -/

namespace Sys2Proof.Proofs

open Sys2Proof.Machine Sys2Proof.Safety Sys2Proof.Laws

/-! ### The exact sum (R98, R100) -/

theorem byteSum_perm {a b : List U8} (h : a.Perm b) : byteSum a = byteSum b := (h.map BitVec.toNat).sum_eq

theorem byteSum_le (data : List U8) : byteSum data ≤ data.length * 255 := by
  have hbyte : ∀ x ∈ data.map BitVec.toNat, x ≤ 255 := by
    intro x hx
    obtain ⟨b, -, rfl⟩ := List.mem_map.mp hx
    omega
  simpa [byteSum] using List.sum_le_card_nsmul _ _ hbyte

/-- An accumulator that wraps at `n` after every byte ends at the exact sum modulo `n`. -/
theorem foldl_add_mod (n acc : Nat) (data : List U8) :
    data.foldl (fun acc b => (acc + b.toNat) % n) (acc % n) = (acc + byteSum data) % n := by
  induction data generalizing acc with
  | nil => simp [byteSum]
  | cons b data ih =>
    rw [List.foldl_cons, Nat.mod_add_mod, ih]
    simp [byteSum, Nat.add_assoc]

theorem add_0x80_toNat_mod (b : U8) : (b + 0x80#8).toNat % 128 = b.toNat % 128 := by
  rw [BitVec.toNat_add, BitVec.toNat_ofNat]
  omega

/-! ### The checksum byte -/

/-- The bits of the checksum below bit 7 are those of the exact sum, and the others are 0. -/
theorem checksumSum_getLsbD (hdr len : U8) (data : List U8) (k : Nat) :
    (checksumSum hdr len data).getLsbD k = (decide (k < 7) && (hdr.toNat + len.toNat + byteSum data).testBit k) := by
  rw [← BitVec.testBit_toNat, checksumSum_toNat]
  exact Nat.testBit_mod_two_pow _ 7 k

section
variable {s : State} {p : Submission} {others : List Submission} (hp : s.pending = p :: others)
include hp

theorem performs_checksum_limited (hdr len : U8) (data : List U8) : Performs (.checksum hdr len data) s p others
    (if Config.maxSeq < data.length then .refused .inputTooLong else .ok (.checksum (checksumSum hdr len data))) := by
  rw [performs_iff hp, instrResponse, checksumResponse, limited_eq_ite, checksumOf_eq]

/-- CHECKSUM answers the remainder by 128 of any number congruent to the exact sum. -/
theorem performs_checksum_of_mod_eq {hdr len : U8} {data : List U8} {n : Nat} (hlen : data.length ≤ Config.maxSeq)
    (hsum : (hdr.toNat + len.toNat + byteSum data) % 128 = n % 128) :
    Performs (.checksum hdr len data) s p others (.ok (.checksum (BitVec.ofNat 8 (n % 128)))) :=
  hsum ▸ performs_checksum hp hdr len hlen

end

/-! ### The statements -/

/-- Settles O9: the limit decides, and the checksum is a remainder by 128, which no protected value is. -/
theorem checksumAnswersSumModulo128 : Obligations.ChecksumAnswersSumModulo128 := by
  intro s p others hdr len data hp
  exact ⟨rfl, checksumSum hdr len data, checksumSum_toNat hdr len data, checksumSum_le hdr len data,
    checksumSum_getLsbD hdr len data 7, checksumSum_not_protected hdr len data,
    performs_checksum_limited hp hdr len data⟩

/-- Settles O10: masking with 0x7F is the remainder by 2 ^ 7. -/
theorem checksumIsLowSevenBitsOfExactSum : Obligations.ChecksumIsLowSevenBitsOfExactSum := by
  intro s p others hdr len data hp hlen
  have hsum := checksumSum_toNat hdr len data
  refine ⟨_, performs_checksum hp hdr len hlen, hsum, ?_, fun k hk => ?_⟩
  · exact hsum.trans (Nat.and_two_pow_sub_one_eq_mod _ 7).symm
  · simp [checksumSum_getLsbD, hk]

/-- Settles O11: 128 divides 2 ^ w, so wrapping at 2 ^ w keeps the remainder by 128. -/
theorem accumulatorWidthIsUnobservable : Obligations.AccumulatorWidthIsUnobservable := by
  refine ⟨fun hdr len data hlen => ?_, fun s p others w hdr len data hp hlen hw => ?_⟩
  · have hsum := byteSum_le data
    have h254 : (0xFE#8).toNat = 254 := rfl
    omega
  · have hdvd : 128 ∣ 2 ^ w := Nat.pow_dvd_pow 2 hw
    rw [foldl_add_mod, Nat.mod_mod_of_dvd _ hdvd]
    exact performs_checksum hp hdr len hlen

/-- Settles O12: each change named keeps the sum modulo 128, or adds the sum of the bytes appended. -/
theorem checksumDependsOnSumModulo128 : Obligations.ChecksumDependsOnSumModulo128 := by
  intro s p others hdr len data hp hlen
  refine ⟨_, performs_checksum hp hdr len hlen, fun _ _ _ => performs_checksum_of_mod_eq hp, fun data' hperm => ?_,
    performs_checksum_of_mod_eq hp hlen ?_, performs_checksum_of_mod_eq hp hlen ?_, fun b hb hlen' => ?_,
    fun more hlen' => ?_⟩
  · exact performs_checksum_of_mod_eq hp (hperm.length_eq ▸ hlen) (by rw [byteSum_perm hperm])
  · have := add_0x80_toNat_mod hdr
    omega
  · have := add_0x80_toNat_mod len
    omega
  · have hb128 : byteSum [b] % 128 = 0 := by
      have hall : ∀ b ∈ [0x00#8, 0x80#8], byteSum [b] % 128 = 0 := by decide
      exact hall b hb
    refine performs_checksum_of_mod_eq hp hlen' ?_
    rw [byteSum_append]
    omega
  · refine performs_checksum_of_mod_eq hp hlen' ?_
    rw [byteSum_append, checksumSum_toNat]
    omega

end Sys2Proof.Proofs
end

section
/-! PROOF. The command registry: what a lookup finds row by row, and that DECODE takes two names from the tables and
nothing else. -/

namespace Sys2Proof.Proofs

open Sys2Proof.Machine Sys2Proof.Safety Sys2Proof.Laws

/-! ### A lookup, row by row (R106, R107) -/

/-- The first row decides for the codes of its range, and leaves the others to the rows after it. -/
theorem lookup_range_cons (first last : U8) (entry : Entry) (rest : RegistryTable) (code : U8) :
    lookup (⟨first, last, entry⟩ :: rest) code =
      if first.toNat ≤ code.toNat ∧ code.toNat ≤ last.toNat then some entry else lookup rest code := by
  by_cases h : first.toNat ≤ code.toNat ∧ code.toNat ≤ last.toNat <;> simp [lookup, BitVec.le_def, h]

theorem lookup_namedRow_cons (c : U8) (name : String) (rest : RegistryTable) (code : U8) :
    lookup (namedRow c name :: rest) code = if code = c then some (.named name) else lookup rest code := by
  have hrange : c.toNat ≤ code.toNat ∧ code.toNat ≤ c.toNat ↔ code = c := by
    rw [BitVec.toNat_eq]
    omega
  simp only [namedRow, lookup_range_cons, hrange]

/-- The rows of an extra map give the names of that map. -/
theorem lookup_extraRows (extra : List (U8 × String)) (code : U8) :
    lookup (extraRows extra) code = (extraName extra code).map .named := by
  induction extra with
  | nil => rfl
  | cons pair extra ih =>
    obtain ⟨c, name⟩ := pair
    have hcons : lookup (extraRows (⟨c, name⟩ :: extra)) code =
        if code = c then some (.named name) else lookup (extraRows extra) code :=
      lookup_namedRow_cons c name (extraRows extra) code
    rw [hcons, ih]
    by_cases h : c = code
    · simp [extraName, h]
    · simp [extraName, h, Ne.symm h]

/-- Settles O27: each listed row is one branch of the chain, and the extra rows are its end. -/
theorem commandNamesFollowTheTable : Obligations.CommandNamesFollowTheTable := by
  intro code
  simp only [reset_cmdTable, cmdName, commandTable, listedCommands, List.cons_append, List.nil_append,
    lookup_namedRow_cons, lookup_range_cons, lookup_extraRows, apply_ite (nameOr "Unknown Command")]
  cases hextra : extraName Config.cmdExtra code <;> simp [commandName, hextra, nameOr]

/-! ### The codes of GET, SET and RESPONSE (R107) -/

/-- Two numbers skipped, the smaller one first, are both missed. -/
theorem skip_skip_ne {a b : Nat} (hab : a ≤ b) (n : Nat) :
    Config.skip b (Config.skip a n) ≠ a ∧ Config.skip b (Config.skip a n) ≠ b := by
  refine ⟨?_, skip_ne b _⟩
  have ha := skip_ne a n
  generalize Config.skip a n = m at ha ⊢
  unfold Config.skip
  split <;> omega

theorem subSet_ne_get : Config.subSet ≠ 0x02#8 := fun h =>
  skip_ne 2 Config.subSetIndex (subSet_toNat.symm.trans (congrArg BitVec.toNat h))

/-- The code of RESPONSE is neither that of GET nor that of SET. -/
theorem subResponse_toNat_ne : Config.subResponse.toNat ≠ 2 ∧ Config.subResponse.toNat ≠ Config.subSet.toNat := by
  rw [subResponse_toNat]
  rcases le_total 2 Config.subSet.toNat with h | h
  · simpa only [min_eq_left h, max_eq_right h] using skip_skip_ne h Config.subResponseIndex
  · simpa only [min_eq_right h, max_eq_left h] using (skip_skip_ne h Config.subResponseIndex).symm

/-- Settles O28: the chain of the listed rows and the extra rows, and the numbers each open code skips. -/
theorem subcommandNamesFollowTheTable : Obligations.SubcommandNamesFollowTheTable := by
  obtain ⟨hget, hset⟩ := subResponse_toNat_ne
  refine ⟨fun code => ?_, subSet_ne_get, fun h => hget (congrArg BitVec.toNat h),
    fun h => hset (congrArg BitVec.toNat h.symm)⟩
  simp only [reset_subTable, subName, subcommandTable, listedSubcommands, List.cons_append, List.nil_append,
    lookup_namedRow_cons, lookup_extraRows, apply_ite (nameOr "Param/Data")]
  cases hextra : extraName Config.subExtra code <;> simp [subcommandName, hextra, nameOr]

/-! ### The tables are constant (R111) -/

theorem step_keeps_tables (s : State) : ∃ t, step s = .next t ∧ t.cmdTable = s.cmdTable ∧ t.subTable = s.subTable := by
  by_cases h : s.pending = []
  · exact ⟨s, step_idle h, rfl, rfl⟩
  · obtain ⟨t, -, -, -, -, hstep, -, -, hc, hb, -⟩ := step_answers_one h
    exact ⟨t, hstep, hc, hb⟩

/-- Settles O29: a step waits or delivers an answer, and sending a request adds to the outstanding ones. -/
theorem registryTablesAreNeverWritten : Obligations.RegistryTablesAreNeverWritten :=
  fun s => ⟨step_keeps_tables s, fun _ _ => ⟨rfl, rfl⟩⟩

/-! ### The tables reach names only (R105, R112) -/

theorem breakDown_of_short {data : List U8} (h : data.length < 5) (cmds subs : RegistryTable) :
    breakDown cmds subs data = .empty := if_pos h

/-- Two breakdowns of one input are equal but for their names: an input of five bytes or more is split by position,
without the tables. -/
theorem eraseNames_breakDown (cmds subs cmds' subs' : RegistryTable) (data : List U8) :
    eraseNames (.ok (.decoded (breakDown cmds subs data))) =
      eraseNames (.ok (.decoded (breakDown cmds' subs' data))) := by
  by_cases hshort : data.length < 5
  · rw [breakDown_of_short hshort, breakDown_of_short hshort]
  · obtain ⟨h, l, esc, c, t, hne, rfl⟩ := exists_fields (Nat.not_lt.mp hshort)
    obtain ⟨dest, params, hu, hdown⟩ := breakDown_fields cmds subs h l c t hne
    obtain ⟨dest', params', hu', hdown'⟩ := breakDown_fields cmds' subs' h l c t hne
    obtain ⟨rfl, rfl⟩ := List.cons.inj (hu.symm.trans hu')
    rw [hdown, hdown']
    rfl

theorem eraseNames_instrResponse (cmds subs cmds' subs' : RegistryTable) (i : Instr) :
    eraseNames (instrResponse cmds subs i) = eraseNames (instrResponse cmds' subs' i) := by
  cases i with
  | escape data => rfl
  | unescape data => rfl
  | checksum hdr len data => rfl
  | encode data => rfl
  | decode data =>
    simp only [instrResponse, decodeResponse, limited_eq_ite, apply_ite eraseNames,
      eraseNames_breakDown cmds subs cmds' subs' data]

/-- Settles O30: both states answer by the rules, whose responses are equal once the names are erased. -/
theorem registryContentsReachNamesOnly : Obligations.RegistryContentsReachNamesOnly := by
  intro i s cmds subs p others hp
  have hp' : ({ s with cmdTable := cmds, subTable := subs } : State).pending = p :: others := hp
  exact ⟨_, _, (performs_iff hp _).mpr rfl, (performs_iff hp' _).mpr rfl, eraseNames_instrResponse ..⟩

end Sys2Proof.Proofs
end

section
/-! PROOF. The packet encoder: what ENCODE answers for every operand, and that DECODE reads a frame of ENCODE back. -/

namespace Sys2Proof.Proofs

open Sys2Proof.Machine Sys2Proof.Safety Sys2Proof.Laws

/-! ### What ENCODE answers (R115, R116) -/

theorem envelopeLimited_eq_ite (data : List U8) (r : Response) :
    envelopeLimited data r = if 255 < data.length then .refused .envTooLong else r := by
  simp only [envelopeLimited, ← Nat.not_lt, ite_not]

/-- Settles O13: the two limits, the operand's first, stand around the frame. -/
theorem encodeAnswersFrame : Obligations.EncodeAnswersFrame := by
  intro s p others hdr len data hp
  refine ⟨rfl, ?_⟩
  rw [performs_iff hp, instrResponse, encodeResponse, limited_eq_ite, envelopeLimited_eq_ite, buildFrame_eq]

/-! ### A frame of ENCODE as an operand of DECODE (R121) -/

theorem unescapeBytes_flatMap_wireByte (data : List U8) : unescapeBytes (data.flatMap wireByte) = data := by
  simpa [unescapeBytes, unescapeScan] using unescapeBytes_escaped data []

/-- The escaped form of an envelope of 255 bytes has 510 at the most, and 514 is the least operand limit (R117). -/
theorem escaped_length_le_maxSeq {data : List U8} (h : data.length ≤ 255) :
    (data.flatMap wireByte).length + 4 ≤ Config.maxSeq := by
  have hmax := maxSeq_ge
  have hcount := protectedCount_le data
  rw [length_flatMap_wireByte]
  omega

/-- The breakdown of the frame of the envelope `dest :: params`. -/
def frameBreakdown (cmds subs : RegistryTable) (dest : U8) (params : List U8) : Breakdown :=
  breakdownOf cmds subs 0xFE#8 (lengthByte (dest :: params)) ((dest :: params).flatMap wireByte) dest params
    (checksumSum 0xFE#8 (lengthByte (dest :: params)) (dest :: params)) 0xFF#8

section
variable (cmds subs : RegistryTable) (dest : U8) (params : List U8)

@[simp] theorem frameBreakdown_envUnescaped :
    (frameBreakdown cmds subs dest params).envUnescaped = dest :: params := rfl
@[simp] theorem frameBreakdown_length :
    (frameBreakdown cmds subs dest params).length = lengthByte (dest :: params) := rfl
@[simp] theorem frameBreakdown_headerValid : (frameBreakdown cmds subs dest params).headerValid = true := rfl
@[simp] theorem frameBreakdown_tailValid : (frameBreakdown cmds subs dest params).tailValid = true := rfl

/-- The decoder expects the checksum the encoder put in: both sum the unescaped envelope under the same header and
length byte. -/
@[simp] theorem frameBreakdown_checksumValid : (frameBreakdown cmds subs dest params).checksumValid = true :=
  beq_iff_eq.mpr (checksumOf_eq _ _ _).symm

/-- The strict test of R169 accepts the frame of an envelope whose length fits the length byte. -/
theorem frameOk_frameBreakdown (h : (dest :: params).length ≤ 255) :
    frameOk (.breakdown (frameBreakdown cmds subs dest params)) = true := by
  simp [frameOk, lengthByte_toNat h]

end

section
variable {s : State} {p : Submission} {others : List Submission} (hp : s.pending = p :: others)
include hp

theorem performs_decode_wireFrame {dest : U8} {params : List U8} (h : (dest :: params).length ≤ 255) :
    Performs (.decode (wireFrame (dest :: params))) s p others
      (.ok (.decoded (.breakdown (frameBreakdown s.cmdTable s.subTable dest params)))) := by
  have hne : (dest :: params).flatMap wireByte ≠ [] := fun hnil => by
    have hlen := length_flatMap_wireByte (dest :: params)
    rw [hnil, List.length_nil, List.length_cons] at hlen
    omega
  obtain ⟨dest', params', hbytes, hperf⟩ := performs_decode_fields hp 0xFE#8 (lengthByte (dest :: params))
    (checksumSum 0xFE#8 (lengthByte (dest :: params)) (dest :: params)) 0xFF#8 hne (escaped_length_le_maxSeq h)
  rw [unescapeBytes_flatMap_wireByte] at hbytes
  obtain ⟨rfl, rfl⟩ := List.cons.inj hbytes
  exact hperf

theorem performs_decode_short {data : List U8} (h : data.length < 5) :
    Performs (.decode data) s p others (.ok (.decoded .empty)) := by
  rw [performs_iff hp, instrResponse, decodeResponse, limited_of_le (le_maxSeq_of_envelope (by omega)),
    breakDown_of_short h]

end

/-- Settles O20: the decoder cuts the frame where the encoder joined it, and unescaping undoes escaping between. -/
theorem decodeInvertsEncode : Obligations.DecodeInvertsEncode := by
  constructor
  · intro s p others e hp hpos henv
    obtain ⟨dest, params, rfl⟩ := List.exists_cons_of_length_pos hpos
    exact ⟨wireFrame (dest :: params), frameBreakdown s.cmdTable s.subTable dest params,
      performs_encode hp (le_maxSeq_of_envelope henv) henv, performs_decode_wireFrame hp henv, rfl, rfl,
      frameBreakdown_checksumValid .., rfl, lengthByte_toNat henv, frameOk_frameBreakdown _ _ _ _ henv⟩
  · intro s p others hp
    exact ⟨wireFrame [], performs_encode hp (Nat.zero_le _) (Nat.zero_le _), wireFrame_length [],
      performs_decode_short hp (by decide)⟩

end Sys2Proof.Proofs
end

section
/-! PROOF. The packet decoder: the breakdown of an input cut by position, the entry list that breakdown stands for, and
the statements of that family. -/

namespace Sys2Proof.Proofs

open Sys2Proof.Machine Sys2Proof.Safety Sys2Proof.Laws

/-! ### What DECODE answers (R123, R125) -/

section
variable {s : State} {p : Submission} {others : List Submission} (hp : s.pending = p :: others)
include hp

theorem performs_decode_too_long {data : List U8} (h : Config.maxSeq < data.length) :
    Performs (.decode data) s p others (.refused .inputTooLong) := by
  rw [performs_iff hp, instrResponse, decodeResponse, limited_of_lt h]

/-- The answer to an input whose escaped envelope unescapes to `dest :: params`. -/
theorem performs_decode_of_unescaped (h l c t : U8) {esc : List U8} {dest : U8} {params : List U8}
    (hu : unescapeBytes esc = dest :: params) (hlen : esc.length + 4 ≤ Config.maxSeq) :
    Performs (.decode ([h, l] ++ esc ++ [c, t])) s p others
      (.ok (.decoded (.breakdown (breakdownOf s.cmdTable s.subTable h l esc dest params c t)))) := by
  have hne : esc ≠ [] := by
    rintro rfl
    cases hu
  obtain ⟨dest', params', hu', hperf⟩ := performs_decode_fields hp h l c t hne hlen
  obtain ⟨rfl, rfl⟩ := List.cons.inj (hu.symm.trans hu')
  exact hperf

/-- Every input of five bytes or more within the limit is cut into fields, and answered with their breakdown. -/
theorem exists_fields_performs_decode {data : List U8} (hmin : 5 ≤ data.length) (hmax : data.length ≤ Config.maxSeq) :
    ∃ h l esc c t dest params, data = [h, l] ++ esc ++ [c, t] ∧ unescapeBytes esc = dest :: params ∧
      esc.length + 4 ≤ Config.maxSeq ∧
      Performs (.decode data) s p others
        (.ok (.decoded (.breakdown (breakdownOf s.cmdTable s.subTable h l esc dest params c t)))) := by
  obtain ⟨h, l, esc, c, t, hne, rfl⟩ := exists_fields hmin
  rw [frame_length] at hmax
  obtain ⟨dest, params, hu, hperf⟩ := performs_decode_fields hp h l c t hne hmax
  exact ⟨h, l, esc, c, t, dest, params, rfl, hu, hmax, hperf⟩

end

/-! ### The breakdown of a reading (R123) -/

/-- A field that is there exactly when the sequence is long enough is a lookup by index. -/
theorem dite_getElem_eq_map {β : Type} (f : U8 → β) (u : List U8) (k : Nat) :
    (if h : k + 1 ≤ u.length then some (f u[k]) else none) = u[k]?.map f := by
  by_cases hk : k < u.length
  · rw [List.getElem?_eq_getElem hk]
    exact dif_pos hk
  · rw [List.getElem?_eq_none (Nat.not_lt.mp hk)]
    exact dif_neg hk

theorem breakdownOf_wireOf (cmds subs : RegistryTable) (h l c t : U8) {tokens : List Token} {dest : U8}
    {params : List U8} (hread : readable tokens) (hu : tokens.map Token.value = dest :: params) :
    breakdownOf cmds subs h l (wireOf tokens) dest params c t = breakdownSpec cmds subs h l tokens dest c t := by
  simp only [breakdownOf, breakdownSpec, hu, unescapeMarks_wireOf hread, checksumOf_eq, dite_getElem_eq_map,
    dite_getElem_eq_map fun x => x, Option.map_id']
  rfl

/-- Settles O17: the limit and the count of bytes decide, and a reading of the escaped envelope gives its unescaped
form and marks. -/
theorem decodeAnswersBreakdown : Obligations.DecodeAnswersBreakdown := by
  refine ⟨fun s p others hdr len data hp => ⟨rfl, performs_decode_too_long hp, performs_decode_short hp⟩,
    fun s p others h l c t tokens hp hread hne hlen => ?_, fun data hmin => ?_⟩
  · obtain ⟨token, tokens', rfl⟩ := List.exists_cons_of_ne_nil hne
    refine ⟨token.value, rfl, ?_⟩
    rw [← breakdownOf_wireOf _ _ h l c t hread rfl]
    exact performs_decode_of_unescaped hp h l c t (unescapeBytes_wireOf hread) hlen
  · obtain ⟨h, l, esc, c, t, hne, rfl⟩ := exists_fields hmin
    obtain ⟨tokens, hread, rfl⟩ := exists_reading esc
    exact ⟨h, l, c, t, tokens, hread, by rintro rfl; exact hne rfl, rfl⟩

/-- Settles O18: below five bytes the answer is `Empty`, and from five bytes up the input has all its fields. -/
theorem decodeOfTooFewBytesIsEmpty : Obligations.DecodeOfTooFewBytesIsEmpty := by
  intro s p others data hp hmax
  refine ⟨performs_decode_short hp, fun hmin => ?_, decodeInvertsEncode.2 s p others hp⟩
  obtain ⟨_, _, _, _, _, _, _, -, -, -, hperf⟩ := exists_fields_performs_decode hp hmin hmax
  exact ⟨_, hperf⟩

/-! ### Another header or length byte (R135, R140) -/

/-- The header and length bytes reach their own fields, `header_valid` and the two checksum results, and nothing
else. -/
theorem breakdownOf_header_length (cmds subs : RegistryTable) (h l h' l' : U8) (esc : List U8) (dest : U8)
    (params : List U8) (c t : U8) :
    breakdownOf cmds subs h' l' esc dest params c t =
      { breakdownOf cmds subs h l esc dest params c t with
        header := h'
        headerValid := decide (h' = 0xFE#8)
        length := l'
        checksumExpected := checksumSum h' l' (dest :: params)
        checksumValid := decide (c = checksumSum h' l' (dest :: params)) } := by
  rw [← checksumOf_eq]
  rfl

/-- Of the other headers, only the one off by 0x80 has the checksum of 0xFE. -/
theorem checksumSum_header_eq_iff {h : U8} (hne : h ≠ 0xFE#8) (len : U8) (data : List U8) :
    checksumSum 0xFE#8 len data = checksumSum h len data ↔ h = 0x7E#8 := by
  have hne' : h.toNat ≠ 254 := fun heq => hne (BitVec.eq_of_toNat_eq heq)
  have hfe : (0xFE#8).toNat = 254 := rfl
  have h7e : (0x7E#8).toNat = 126 := rfl
  have hlt := h.isLt
  rw [BitVec.toNat_eq, BitVec.toNat_eq, checksumSum_toNat, checksumSum_toNat]
  omega

/-- Settles O21: the changed frame has the same fields but for the header, and its checksum is still that of 0xFE. -/
theorem changedHeaderReachesHeaderAndChecksumFieldsOnly :
    Obligations.ChangedHeaderReachesHeaderAndChecksumFieldsOnly := by
  intro s p others e h hp hpos henv hne
  obtain ⟨dest, params, rfl⟩ := List.exists_cons_of_length_pos hpos
  refine ⟨(wireFrame (dest :: params)).tail, frameBreakdown s.cmdTable s.subTable dest params,
    performs_encode hp (le_maxSeq_of_envelope henv) henv, performs_decode_wireFrame hp henv, ?_⟩
  have hperf := performs_decode_of_unescaped hp h (lengthByte (dest :: params))
    (checksumSum 0xFE#8 (lengthByte (dest :: params)) (dest :: params)) 0xFF#8
    (unescapeBytes_flatMap_wireByte (dest :: params)) (escaped_length_le_maxSeq henv)
  rw [breakdownOf_header_length _ _ 0xFE#8 (lengthByte (dest :: params)), decide_eq_false hne,
    decide_eq_decide.mpr (checksumSum_header_eq_iff hne _ _)] at hperf
  exact hperf

/-- Settles O22: both inputs have the same fields but for the length, which only the expected checksum reads. -/
theorem lengthByteIsInformational : Obligations.LengthByteIsInformational := by
  intro s p others h l l' body hp hmin hmax
  obtain ⟨_, _, esc, c, t, dest, params, hdata, hu, hlen, hperf⟩ :=
    exists_fields_performs_decode hp (data := h :: l :: body) (Nat.add_le_add_right hmin 2) hmax
  obtain ⟨rfl, rfl, rfl⟩ : h = _ ∧ l = _ ∧ body = esc ++ [c, t] := by simpa using hdata
  refine ⟨_, hperf, rfl, checksumOf_eq _ _ _, congrArg (checksumValid c) (checksumOf_eq _ _ _), ?_⟩
  have hperf' := performs_decode_of_unescaped hp h l' c t hu hlen
  rw [breakdownOf_header_length _ _ h l] at hperf'
  exact hperf'

/-! ### The entry list (R137, R138) -/

/-- An entry's label and raw bytes. -/
def labelledRaw (e : FieldEntry) : String × List U8 := (e.label, e.raw)

/-- An entry's label and fixed text, where it has one. -/
def labelledText (e : FieldEntry) : Option (String × String) := e.fixedText.map fun text => (e.label, text)

theorem codeEntry_eq_map (label : String) (code : Option U8) (name : Option CodeName) :
    codeEntry label code name = code.toList.map fun c => byteEntry label c (codeText name) := by
  cases code <;> rfl

/-- The entry list of any breakdown by label and raw bytes: a code's entry is there exactly when the code is. -/
theorem entriesOf_labelledRaw (b : Breakdown) :
    (entriesOf b).map labelledRaw =
      [("Header", [b.header]), ("Length", [b.length]), ("Data Envelope", b.envEscaped), ("Destination", [b.dest])] ++
      (b.cmd.toList.map fun c => ("Command", [c])) ++
      (b.sub.toList.map fun c => ("Subcommand/Parameter", [c])) ++
      [("Checksum", [b.checksum]), ("Tail", [b.tail])] := by
  simp [entriesOf, codeEntry_eq_map, labelledRaw, byteEntry, Function.comp_def]

theorem entriesOf_beside (b : Breakdown) :
    ((entriesOf b).filter fun e => decide (e.label = "Data Envelope")).map FieldEntry.beside =
      [some (b.envUnescaped, b.envMarks)] := by
  simp [entriesOf, codeEntry_eq_map, byteEntry, List.filter_map, Function.comp_def]

theorem exists_subcommand_entry_iff (b : Breakdown) :
    (∃ e ∈ entriesOf b, e.label = "Subcommand/Parameter") ↔ b.sub.isSome := by
  have hlabel : (∃ e ∈ entriesOf b, e.label = "Subcommand/Parameter") ↔
      "Subcommand/Parameter" ∈ ((entriesOf b).map labelledRaw).map Prod.fst := by
    simp [labelledRaw]
  rw [hlabel, entriesOf_labelledRaw]
  simp [Option.isSome_iff_exists]

/-- The byte at an index, where there is one, as a slice of one byte. -/
theorem getElem?_toList_map_eq_ite (label : String) (u : List U8) (k : Nat) :
    (u[k]?.toList.map fun c => (label, [c])) =
      if k + 1 ≤ u.length then [(label, (u.drop k).take 1)] else [] := by
  rw [List.take_one, List.head?_drop]
  by_cases hk : k < u.length
  · rw [List.getElem?_eq_getElem hk]
    exact (if_pos hk).symm
  · rw [List.getElem?_eq_none (Nat.not_lt.mp hk)]
    exact (if_neg hk).symm

/-- Settles O25: the codes are the second and third unescaped bytes, so their entries are there exactly when those
are. -/
theorem entryListFollowsFieldOrder : Obligations.EntryListFollowsFieldOrder := by
  intro s p others data hp hmin hmax
  obtain ⟨h, l, esc, c, t, dest, params, -, -, -, hperf⟩ := exists_fields_performs_decode hp hmin hmax
  refine ⟨_, hperf, ?_, entriesOf_beside _⟩
  rw [← getElem?_toList_map_eq_ite, ← getElem?_toList_map_eq_ite]
  exact entriesOf_labelledRaw _

/-- Settles O19: each field is read off the cut of the input, and the subcommand off the unescaped envelope. -/
theorem decodeReadsFieldsByPosition : Obligations.DecodeReadsFieldsByPosition := by
  intro s p others data hp hmin hmax
  obtain ⟨h, l, esc, c, t, dest, params, rfl, hu, hlen, hperf⟩ := exists_fields_performs_decode hp hmin hmax
  have htail : ([h, l] ++ esc ++ [c, t])[([h, l] ++ esc ++ [c, t]).length - 1]? = some t := by
    rw [frame_length]
    exact frame_getElem?_after h l c t esc 1
  have hunescape := performs_unescape hp (data := esc) (by omega)
  rw [hu] at hunescape
  refine ⟨_, hperf, rfl, ?_, htail, ?_, ?_, hunescape, rfl, beq_iff_eq, fun x hx => ?_, fun hshort => ?_, ?_⟩
  · simp [breakdownOf, headerValid]
  · simp [breakdownOf, tailValid]
  · rw [frame_length, List.drop_take]
    exact (frame_take_escaped h l c t esc).symm
  · have hsub : params[1]? = some x := hx
    simp [breakdownOf, hsub]
  · have hsub : params[1]? = none := List.getElem?_eq_none (Nat.le_of_lt_succ (Nat.lt_of_succ_lt_succ hshort))
    simp [breakdownOf, hsub]
  · exact (exists_subcommand_entry_iff _).trans (by simp [breakdownOf]; omega)

/-! ### The fixed texts (R138) -/

/-- An unknown code has the fallback name (R108, R109). -/
theorem nameOr_name_of_unknown {fallback : String} {entry : Option Entry}
    (h : (nameOr fallback entry).cls = .unknown) : (nameOr fallback entry).name = fallback := by
  match entry with
  | some (.named _) => cases h
  | some (.family _) => cases h
  | none => rfl

theorem headerEntry_labelledText (b : Breakdown) :
    labelledText (byteEntry "Header" b.header (headerText b)) =
      if b.headerValid then none else some ("Header", "INVALID Header") := by
  simp only [labelledText, byteEntry, headerText, apply_ite (Option.map _), Option.map_none, Option.map_some]

/-- The entry of a code carries a text exactly when the registry does not hold the code. -/
theorem codeEntry_labelledText (label : String) {fallback : String} {name : U8 → CodeName}
    (hname : ∀ x, (name x).cls = .unknown → (name x).name = fallback) (code : Option U8)
    [Decidable (∃ x, code = some x ∧ (name x).cls = .unknown)] :
    (codeEntry label code (code.map name)).filterMap labelledText =
      if ∃ x, code = some x ∧ (name x).cls = .unknown then [(label, fallback)] else [] := by
  cases code with
  | none => simp [codeEntry]
  | some x =>
    by_cases hx : (name x).cls = .unknown
    · simp [codeEntry, byteEntry, labelledText, codeText, hx, hname x hx]
    · simp [codeEntry, byteEntry, labelledText, codeText, hx]

theorem entriesOf_labelledText (b : Breakdown) :
    (entriesOf b).filterMap labelledText =
      (if b.headerValid then [] else [("Header", "INVALID Header")]) ++
      (codeEntry "Command" b.cmd b.cmdName).filterMap labelledText ++
      (codeEntry "Subcommand/Parameter" b.sub b.subName).filterMap labelledText := by
  have hnone (label : String) (x : U8) : labelledText (byteEntry label x none) = none := rfl
  have henv (raw : List U8) (beside) : labelledText ⟨"Data Envelope", raw, beside, none⟩ = none := rfl
  cases hv : b.headerValid <;>
    simp [entriesOf, headerEntry_labelledText, hv, hnone, henv]

theorem cmdName_commandTable (code : U8) : cmdName commandTable code = commandName code :=
  commandNamesFollowTheTable code

theorem subName_subcommandTable (code : U8) : subName subcommandTable code = subcommandName code :=
  subcommandNamesFollowTheTable.1 code

/-- Settles O26: the Header entry's text follows `header_valid`, and a code's entry's text the class of its name. -/
theorem fixedTextsStandWhereTheSourcePutsThem : Obligations.FixedTextsStandWhereTheSourcePutsThem := by
  intro s p others data hp htables hmin hmax
  obtain ⟨hcmds, hsubs⟩ := htables
  obtain ⟨h, l, esc, c, t, dest, params, rfl, -, -, hperf⟩ := exists_fields_performs_decode hp hmin hmax
  refine ⟨_, hperf, (entriesOf_labelledText _).trans ?_⟩
  simp only [← cmdName_commandTable, ← subName_subcommandTable, ← hcmds, ← hsubs]
  refine congrArg₂ (· ++ ·) (congrArg₂ (· ++ ·) ?_ ?_) ?_
  · simp [breakdownOf, headerValid]
  · exact codeEntry_labelledText "Command" (name := cmdName s.cmdTable) (fun _ => nameOr_name_of_unknown) params[0]?
  · exact codeEntry_labelledText "Subcommand/Parameter" (name := subName s.subTable)
      (fun _ => nameOr_name_of_unknown) params[1]?

end Sys2Proof.Proofs
end

section
/-! PROOF. The exceptions family: which refusal reason a response reports, that no rule reads who sent a request, and
that the requests of an execution whose requesters stop sending are all answered. -/

namespace Sys2Proof.Proofs

open Sys2Proof.Machine Sys2Proof.Safety Sys2Proof.Laws

/-! ### The order of the refusal reasons (R147, R149) -/

@[simp] theorem encode_data (i : Instr) : (encode i).data = i.data := by cases i <;> rfl

@[simp] theorem clearIgnored_data (r : Request) : (clearIgnored r).data = r.data := by
  unfold clearIgnored
  split <;> rfl

theorem opOf_of_decode {r : Request} {i : Instr} (h : decode r = .ok i) : opOf i = r.op := by
  simpa using congrArg Request.op (encode_of_decode h)

theorem data_of_decode {r : Request} {i : Instr} (h : decode r = .ok i) : i.data = r.data := by
  simpa using congrArg Request.data (encode_of_decode h)

/-- Only reserved codes are refused by the decoder (R62, R63). -/
theorem exists_decode_of_op_range {r : Request} (hlow : 1 ≤ r.op.toNat) (hhigh : r.op.toNat ≤ 5) :
    ∃ i, decode r = .ok i := by
  simp only [decode]
  split_ifs with h1 h2 h3 h4 h5
  case neg => bv_omega
  all_goals exact ⟨_, rfl⟩

/-- The envelope limit refuses long operands of ENCODE alone (R116). -/
theorem withinEnvelope_eq_false_iff (i : Instr) :
    i.withinEnvelope = false ↔ opOf i = 0x04#8 ∧ 255 < i.data.length := by
  cases i <;> simp [Instr.withinEnvelope, opOf, Instr.data]

/-- The response the rules give a request, as a chain of the reasons in their order. -/
theorem requestResponse_eq_first_reason (cmds subs : RegistryTable) (r : Request) :
    ∃ result, requestResponse cmds subs r =
      if r.op.toNat = 0 ∨ 5 < r.op.toNat then .refused .badOp
      else if Config.maxSeq < r.data.length then .refused .inputTooLong
      else if r.op = 0x04#8 ∧ 255 < r.data.length then .refused .envTooLong
      else .ok result := by
  by_cases hop : r.op.toNat = 0 ∨ 5 < r.op.toNat
  · exact ⟨.escaped [], by rw [if_pos hop, requestResponse_of_reserved cmds subs hop]⟩
  · obtain ⟨i, hd⟩ := exists_decode_of_op_range (r := r) (by omega) (by omega)
    obtain ⟨result, -, hresp⟩ := instrResponse_eq_limited cmds subs i
    refine ⟨result, ?_⟩
    have henv := withinEnvelope_eq_false_iff i
    rw [opOf_of_decode hd, data_of_decode hd] at henv
    simp only [if_neg hop, requestResponse, hd, hresp, limited_eq_ite, data_of_decode hd, ← henv]
    cases i.withinEnvelope <;> rfl

/-- Settles O32: the step answers one request by the rules, and their response is a chain of the reasons. -/
theorem refusalReasonsHaveOnePriority : Obligations.RefusalReasonsHaveOnePriority := by
  intro s h
  obtain ⟨t, before, p, after, hp, hstep, -, ha, -⟩ := step_answers_one h
  obtain ⟨result, hresp⟩ := requestResponse_eq_first_reason s.cmdTable s.subTable p.request
  refine ⟨t, p, _, by simp [hp], hstep, ha, ?_⟩
  rw [hresp]
  split_ifs
  · rfl
  · rfl
  · rfl
  · exact ⟨result, rfl⟩

/-! ### Who sent a request (R160) -/

/-- Settles O38: both steps choose the same request, and its response is read from its record alone. -/
theorem requesterIdentityIsNotRead : Obligations.RequesterIdentityIsNotRead := by
  intro f s
  by_cases h : s.pending = []
  · exact ⟨s, step_idle h, step_idle (by simp [relabel, h])⟩
  · obtain ⟨before, p, after, -, hc⟩ := choose_split h
    have hc' := choose_map (u := relabel f s) (fun p => { p with requester := f p.requester }) rfl rfl hc
    refine ⟨_, step_of_choose hc, (step_of_choose hc').trans ?_⟩
    simp [relabel, State.serve, State.deliver, answerOf]

/-! ### Fairness (R161) -/

/-- From `s` to `t` no request is lost: answers are only added, and a request outstanding at `s` is outstanding at `t`
or has one of the answers added. -/
def LosesNone (s t : State) : Prop :=
  ∃ added, t.answered = s.answered ++ added ∧
    ∀ p ∈ s.pending, p ∈ t.pending ∨ ∃ response, answerOf p response ∈ added

theorem LosesNone.refl (s : State) : LosesNone s s := ⟨[], by simp, fun _ hp => .inl hp⟩

theorem LosesNone.trans {s t u : State} (hst : LosesNone s t) (htu : LosesNone t u) : LosesNone s u := by
  obtain ⟨first, hfirst, hs⟩ := hst
  obtain ⟨second, hsecond, ht⟩ := htu
  refine ⟨first ++ second, by simp [hsecond, hfirst], fun p hp => ?_⟩
  rcases hs p hp with hpend | ⟨response, hmem⟩
  · exact (ht p hpend).imp_right fun ⟨response, hmem⟩ => ⟨response, List.mem_append_right _ hmem⟩
  · exact .inr ⟨response, List.mem_append_left _ hmem⟩

theorem losesNone_submit (s : State) (requester : Fin Config.requesters) (request : Request) :
    LosesNone s (s.submit requester request) :=
  ⟨[], by simp, fun _ hp => .inl (List.mem_append_left _ hp)⟩

theorem losesNone_of_step {s t : State} (hstep : step s = .next t) : LosesNone s t := by
  by_cases h : s.pending = []
  · obtain rfl : s = t := by simpa [step_idle h] using hstep
    exact LosesNone.refl s
  · obtain ⟨t', before, q, after, hp, hstep', hrest, ha, -⟩ := step_answers_one h
    obtain rfl : t' = t := by simpa [hstep'] using hstep
    refine ⟨[ruleAnswer s q], ha, fun p hmem => ?_⟩
    rw [hp, List.perm_middle.mem_iff, List.mem_cons] at hmem
    rcases hmem with rfl | hother
    · exact .inr ⟨_, List.mem_singleton_self _⟩
    · exact .inl (hrest ▸ hother)

theorem execution_losesNone {σ : Nat → State} (hσ : Execution σ) (n k : Nat) : LosesNone (σ n) (σ (n + k)) := by
  induction k with
  | zero => exact LosesNone.refl _
  | succ k ih =>
    refine ih.trans ?_
    rcases hσ (n + k) with hstep | ⟨requester, request, hsent⟩
    · exact losesNone_of_step hstep
    · exact hsent ▸ losesNone_submit _ requester request

/-- An execution of steps alone is a run. -/
theorem run_of_steps {σ : Nat → State} {n : Nat} (h : ∀ m ≥ n, step (σ m) = .next (σ (m + 1))) (k : Nat) :
    Host.Core.run Sys2Proof.core k (σ n) = .next (σ (n + k)) := by
  induction k generalizing n with
  | zero => rfl
  | succ k ih =>
    have hrest := ih (n := n + 1) fun m hm => h m (Nat.le_of_succ_le hm)
    rw [Nat.succ_add_eq_add_succ] at hrest
    exact (run_succ_of_step (h n le_rfl) k).trans hrest

/-- As many steps as requests are outstanding leave none. -/
theorem pending_nil_of_steps {σ : Nat → State} {n : Nat} (h : ∀ m ≥ n, step (σ m) = .next (σ (m + 1))) :
    (σ (n + (σ n).pending.length)).pending = [] := by
  obtain ⟨t, -, hrun, ht, -⟩ := run_serves_all _ (σ n) rfl
  obtain rfl : σ (n + (σ n).pending.length) = t :=
    Host.Outcome.next.inj ((run_of_steps h _).symm.trans hrun)
  exact ht

/-- Settles O49: no transition loses a request, and some time after the last request was sent none is outstanding. -/
theorem finiteRequestsGiveFairness : Obligations.FiniteRequestsGiveFairness := by
  intro σ hσ ⟨N, hsteps⟩ n p hp
  have hnil := pending_nil_of_steps (n := n + N) fun m hm => hsteps m (by omega)
  rw [Nat.add_assoc] at hnil
  obtain ⟨added, ha, hlost⟩ := execution_losesNone hσ n (N + (σ (n + N)).pending.length)
  obtain ⟨response, hmem⟩ : ∃ response, answerOf p response ∈ added := by simpa [hnil] using hlost p hp
  exact ⟨_, Nat.le_add_right n _, response, by rwa [ha, List.drop_left]⟩

end Sys2Proof.Proofs
end

section
/-! PROOF. The reset and hazards family: what happens where no request is outstanding, and which inputs the strict test
on DECODE's answer accepts. -/

namespace Sys2Proof.Proofs

open Sys2Proof.Machine Sys2Proof.Safety Sys2Proof.Laws

/-! ### No request outstanding (log entries 8 and 9) -/

theorem exec_idle {s : State} (h : s.pending = []) (i : Instr) : exec i s = .next s := by
  rw [exec_eq, respond_nil h]

/-- Settles O36: the choice finds no request, and an operation has none to deliver its response to. -/
theorem nothingOutstandingNothingChanges : Obligations.NothingOutstandingNothingChanges :=
  fun _ h => ⟨step_idle h, exec_idle h⟩

/-! ### The strict test (R169) -/

theorem frameOk_breakdown_iff (b : Breakdown) :
    frameOk (.breakdown b) = true ↔
      b.headerValid = true ∧ b.tailValid = true ∧ b.length.toNat = b.envUnescaped.length ∧
        b.checksumValid = true := by
  simp only [frameOk, Bool.and_eq_true, beq_iff_eq]
  tauto

theorem frameOk_breakdownSpec_iff (cmds subs : RegistryTable) (h l : U8) (tokens : List Token) (dest c t : U8) :
    frameOk (.breakdown (breakdownSpec cmds subs h l tokens dest c t)) = true ↔
      h = 0xFE#8 ∧ t = 0xFF#8 ∧ l.toNat = tokens.length ∧ c = checksumSum h l (tokens.map Token.value) := by
  simp only [frameOk_breakdown_iff, breakdownSpec, decide_eq_true_eq, List.length_map]

/-- Settles O24: DECODE answers the breakdown of the reading, and each conjunct of the test is one of its fields. -/
theorem frameOkAcceptsExactlyStrictFrames : Obligations.FrameOkAcceptsExactlyStrictFrames := by
  refine ⟨fun s p others h l c t tokens hp hread hne hlen => ?_, rfl⟩
  obtain ⟨-, hbreakdown, -⟩ := decodeAnswersBreakdown
  obtain ⟨dest, -, hperf⟩ := hbreakdown s p others h l c t tokens hp hread hne hlen
  exact ⟨_, hperf, frameOk_breakdownSpec_iff s.cmdTable s.subTable h l tokens dest c t⟩

end Sys2Proof.Proofs
end
